-- ==== Sys2Proof/Word.lean ====
section
/-! DEFINITION. The one word size of the hardware: the unsigned byte of registers, memory cells,
opcodes and operands (00_scope.md rules R6 and R8). -/

namespace Sys2Proof

/-- An unsigned byte, 0 to 255, bit 7 the most significant (rule R8). -/
abbrev Byte := BitVec 8

end Sys2Proof
end

