-- ==== Sys2Proof/Config.lean ====
section
/-! DEFINITION. What an implementation of the hardware fixes: the constants of 00_scope.md rule R6
and the open parameters of rule R7. The parameters are named arguments of the model; the
machine `Sys2Proof.core` takes the defaults given here, each marked where it stands. -/

namespace Sys2Proof

/-- `MEM_SIZE`: the number of bytes of memory (rule R6). -/
abbrev Config.memSize : Nat := 256

/-- `NREGS`: the number of registers (rule R6). -/
abbrev Config.numRegs : Nat := 8

/-- `SP_INDEX`: the register that is the stack pointer (rule R6). -/
abbrev Config.spIndex : Nat := 7

/-- `ORIGIN`: where the program image is placed (rule R6). -/
abbrev Config.origin : Nat := 0

/-- `PC_RESET` (rule R6). -/
abbrev Config.pcReset : Nat := 0

/-- The opcode bytes the source does not state: `OPC_MUL`, `OPC_PUSH`, `OPC_POP`, `OPC_CALL`
(rule R7, decision D3). What the source does fix of them is `Opcodes.admissible` in WellFormed.lean. -/
structure Opcodes where
  mul  : Byte
  push : Byte
  pop  : Byte
  call : Byte
deriving DecidableEq, Repr

/-- The opcode bytes of the machine `Sys2Proof.core`: the defaults of rule R7 and of
opcode_table.json. PRESUMED (the LS-8 family's values), unsafe: log entry 1. -/
def Config.opcodes : Opcodes where
  mul  := 0xA2#8
  push := 0x45#8
  pop  := 0x46#8
  call := 0x50#8

/-- The register values at reset that the source does not state: `R_RESET[0..6]` and `SP_RESET`
(rule R7, decisions D1 and D2). -/
structure ResetValues where
  general : Vector Byte 7
  sp      : Byte
deriving DecidableEq, Repr

/-- The reset values of the machine `Sys2Proof.core`. PRESUMED (the LS-8 family's: R0 to R6 zero,
SP 0xF4), unsafe: log entries 2 and 3. -/
def Config.resetValues : ResetValues where
  general := Vector.replicate 7 0#8
  sp      := 0xF4#8

/-- The exit statuses the source does not state: `EXIT_FATAL` and `EXIT_LOAD` (rule R7,
decision D11). They have no default: whatever speaks of an exit status takes them as an argument. -/
structure ExitCodes where
  fatal : Int
  load  : Int
deriving DecidableEq, Repr

end Sys2Proof
end

