-- ==== Sys2Proof/Machine/State.lean ====
section
/-! DEFINITION. The whole state of the core (10_state.md: MEM, x[0..7], pc, RUN, OUT, WARN and
nothing else, rules R30 to R33), its reset value, and the reasons a step can stop. -/

namespace Sys2Proof.Machine

/-! ## Memory -/

/-- `MEM` (rule R20): the bytes that differ from what an unlisted address reads as, by address,
in the canonical form `Memory.wf`. -/
abbrev Memory := List Host.Cell

/-- What an address that is not listed reads as: memory is "zero-initialized" (rule R20). -/
abbrev Memory.unlisted : Byte := 0#8

/-- The canonical form: addresses strictly rising and inside the 256 bytes of memory, and no
entry equal to what an unlisted address reads as. -/
abbrev Memory.wf (m : Memory) : Prop :=
  m.Pairwise (fun c d => c.1 < d.1) ∧ ∀ c ∈ m, c.1 < Config.memSize ∧ c.2 ≠ Memory.unlisted

/-! ## The run state and the outward records -/

/-- What an `OutOfBounds` names: a register or a memory address (60_exceptions.md rule R154). -/
inductive BoundsKind where
  | reg | mem
deriving DecidableEq, Repr

/-- The record of a fatal `OutOfBounds`: kind, offending index or address (−1 is possible), and
the address of the opcode of the cycle that raised it (rule R154). -/
structure OutOfBounds where
  kind  : BoundsKind
  index : Int
  pc    : Nat
deriving DecidableEq, Repr

/-- `RUN` (rule R27). -/
inductive RunState where
  | running
  | halted
  | aborted (info : OutOfBounds)
deriving DecidableEq, Repr

/-- One entry of `WARN` (rule R29). -/
structure Warning where
  pc     : Nat
  opcode : Byte
deriving DecidableEq, Repr

/-! ## The state -/

/-- The state of the core. `pc` is a natural number that never wraps (rule R25). -/
structure State where
  /-- `MEM`, rule R20. -/
  mem  : Memory
  /-- `x[0]` to `x[7]`, rules R21 and R22; `x[7]` is the stack pointer. -/
  regs : Vector Byte Config.numRegs
  /-- `pc`, rule R25. -/
  pc   : Nat
  /-- `RUN`, rule R27. -/
  run  : RunState
  /-- `OUT`, rule R28: the bytes emitted, the first emitted first. -/
  out  : List Byte
  /-- `WARN`, rule R29: the warnings logged, the first logged first. -/
  warn : List Warning
deriving DecidableEq, Repr

/-- The state after reset and before the load, for given values of the registers whose reset
value the source does not state (rules R34 and R180). -/
def State.resetWith (v : ResetValues) : State where
  mem  := []
  regs := v.general.push v.sp
  pc   := Config.pcReset
  run  := .running
  out  := []
  warn := []

/-- The machine right after reset, with the register values of `Config.resetValues`. -/
def State.reset : State := State.resetWith Config.resetValues

/-! ## The reasons a step can stop -/

/-- Why `step` has no next state. No instruction's meaning answers with one: a fatal
`OutOfBounds` is a next state, with `RUN` = `Aborted` (rule R152). -/
inductive Fault where
  /-- Raised by `step` when `RUN` is `Halted`: no cycle runs (rules R27 and R90, decision D18).
  Safe: the machine is stuck there in the spec too. -/
  | halted
  /-- Raised by `step` when `RUN` is `Aborted(info)`: no cycle runs (rules R27 and R152).
  Safe: the machine is stuck there in the spec too. -/
  | aborted (info : OutOfBounds)
deriving DecidableEq, Repr

/-- Why the model has no meaning to run. -/
inductive Refusal where
  /-- Raised by an arm of `exec` that has no meaning yet; no arm does. Safe. -/
  | notModelled (mnemonic : String)
deriving DecidableEq, Repr

end Sys2Proof.Machine
end

