-- ==== Sys2Proof/Machine/Ops.lean ====
section
/-! DEFINITION. The operations every meaning is written over: memory, the raising and the taking of
`OutOfBounds`, the stack pointer, the outward records, and how a handler's result ends a cycle. -/

namespace Sys2Proof.Machine

/-! ## Field updates -/

def State.withMem (m : Memory) (s : State) : State := { s with mem := m }

def State.withRegs (r : Vector Byte Config.numRegs) (s : State) : State := { s with regs := r }

def State.withPc (p : Nat) (s : State) : State := { s with pc := p }

def State.withRun (r : RunState) (s : State) : State := { s with run := r }

/-- `Emit(s)` of 00_scope.md rule R9: append bytes to `OUT`. -/
def State.emit (bytes : List Byte) (s : State) : State := { s with out := s.out ++ bytes }

/-- `Warn(p, o)` of rule R9: append an entry to `WARN`. -/
def State.logWarning (w : Warning) (s : State) : State := { s with warn := s.warn ++ [w] }

/-! ## `OutOfBounds` -/

/-- `raise OutOfBounds(kind, index, pc)`: the record names the pc of the cycle that raises it
(60_exceptions.md rule R154). -/
def raise {α : Type} (kind : BoundsKind) (index : Int) (s : State) : Except OutOfBounds α :=
  .error ⟨kind, index, s.pc⟩

/-- Taking a fatal `OutOfBounds`: the state is that of the start of the cycle with `RUN` replaced
(rules R152 and R155). Nothing is saved and no address is entered; there is no return from it
(rule R161). -/
def abort (info : OutOfBounds) (s : State) : State := s.withRun (.aborted info)

/-! ## Memory -/

/-- The byte at an address. -/
def Memory.read (m : Memory) (a : Nat) : Byte := (m.lookup a).getD Memory.unlisted

/-- The memory without any entry for an address. -/
def Memory.erase (m : Memory) (a : Nat) : Memory := m.filter (fun c => c.1 != a)

/-- Put an entry before the first one with a higher address. -/
def Memory.insert (a : Nat) (v : Byte) : Memory → Memory
  | [] => [(a, v)]
  | c :: m => if a < c.1 then (a, v) :: c :: m else c :: Memory.insert a v m

/-- The memory with the byte at an address replaced, in canonical form. -/
def Memory.write (m : Memory) (a : Nat) (v : Byte) : Memory :=
  if v = Memory.unlisted then m.erase a else (m.erase a).insert a v

/-- The addresses that exist: 0 to 255 (20_memory.md rule R40). -/
abbrev inMemory (a : Int) : Prop := 0 ≤ a ∧ a < Config.memSize

/-- `MemRead(a, 1)` (20_memory.md rule R40). -/
def memRead (a : Int) (s : State) : Except OutOfBounds Byte :=
  if inMemory a then .ok (s.mem.read a.toNat) else raise .mem a s

/-- `MemWrite(a, 1, v)` (20_memory.md rule R41). -/
def memWrite (a : Int) (v : Byte) (s : State) : Except OutOfBounds State :=
  if inMemory a then .ok (s.withMem (s.mem.write a.toNat v)) else raise .mem a s

/-! ## Fetch -/

/-- The three bytes of a cycle. -/
structure FetchWindow where
  opcode : Byte
  a      : Byte
  b      : Byte
deriving DecidableEq, Repr

/-- The three reads of every cycle, in order and bounds-checked (40_fetch_decode_dispatch.md
rule R87). -/
def fetch (s : State) : Except OutOfBounds FetchWindow := do
  let o ← memRead s.pc s
  let a ← memRead (s.pc + 1) s
  let b ← memRead (s.pc + 2) s
  .ok ⟨o, a, b⟩

/-! ## The stack pointer -/

/-- `SP`, another spelling of `x[7]` (10_state.md rule R22). -/
def State.sp (s : State) : Byte := s.regs[Config.spIndex]

/-- Set `x[7]` to an integer address, which must exist: the steps of the stack pointer are made on
integers and do not wrap (43_push_pop.md rules R120 and R121, decision D6, log entry 7). -/
def moveSp (a : Int) (s : State) : Except OutOfBounds State :=
  if inMemory a then .ok (s.withRegs (s.regs.set Config.spIndex (BitVec.ofInt 8 a)))
  else raise .mem a s

/-- `s <- x[7] - 1`: the address PUSH and CALL store to (20_memory.md rule R55). -/
def pushAddress (s : State) : Int := (s.sp.toNat : Int) - 1

/-- `s <- x[7]`: the address POP and RETURN read, `x[7]` (rule R55). -/
def popAddress (s : State) : Int := s.sp.toNat

/-- `if s < 0 raise ; x[7] <- s` of PUSH and CALL (rules R120 and R130). -/
def stepSpDown (s : State) : Except OutOfBounds State := moveSp (pushAddress s) s

/-- `t <- x[7] + 1 ; if t > 255 raise ; x[7] <- t` of POP and RETURN (rules R121 and R131). -/
def stepSpUp (s : State) : Except OutOfBounds State := moveSp ((s.sp.toNat : Int) + 1) s

/-! ## Handlers and the end of a cycle -/

/-- How a handler that raises nothing ends (40_fetch_decode_dispatch.md rule R85). -/
inductive Result where
  /-- "advance PC by default amount". -/
  | advance
  /-- "PC already repositioned to X". -/
  | jump (target : Byte)
deriving DecidableEq, Repr

/-- What a handler gives: a state and a result, or a fault (rule R85). -/
abbrev Handled := Except OutOfBounds (State × Result)

/-- The end of a cycle that began in `s`: the update of pc (rule R89: by 1 + the operand count, or
to the target, not reduced), or the abort (rule R91). -/
def conclude (operands : Nat) (s : State) : Handled → Host.Outcome State Fault Refusal
  | .ok (t, .advance)     => .next (t.withPc (s.pc + 1 + operands))
  | .ok (t, .jump target) => .next (t.withPc target.toNat)
  | .error info           => .next (abort info s)

/-! ## Placing an instruction where it will be fetched -/

/-- The bytes stored at pc, pc + 1 and pc + 2 of a machine that is about to fetch them. Where the
next cycle could not fetch (the run is over, or pc is above 253), the run state is `Running` and
pc is 0 (log entry 14). -/
def placeFetchWindow (w : FetchWindow) (s : State) : State :=
  let p := if s.pc ≤ 253 then s.pc else 0
  let m := ((s.mem.write p w.opcode).write (p + 1) w.a).write (p + 2) w.b
  ((s.withRun .running).withPc p).withMem m

end Sys2Proof.Machine
end

