-- ==== Sys2Proof/Machine/Operands.lean ====
section
/-! DEFINITION. Register operands, bounds-checked (10_state.md rule R23), and the two computations
the meanings make on operand values: the product of MULTIPLY and the decimal spelling of
PRINT-REGISTER. An immediate operand is its byte, unchanged (30_encoding.md rule R65). The
hardware has no flags (rule R30), so there is no Flags.lean. -/

namespace Sys2Proof.Machine

/-- `x[i]`, a register read (rule R23). -/
def readReg (i : Nat) (s : State) : Except OutOfBounds Byte :=
  if h : i < Config.numRegs then .ok s.regs[i] else raise .reg i s

/-- `x[i] <- v`, a register write (rule R23). -/
def writeReg (i : Nat) (v : Byte) (s : State) : Except OutOfBounds State :=
  if h : i < Config.numRegs then .ok (s.withRegs (s.regs.set i v)) else raise .reg i s

/-- `(p * q) mod 256` (42_mul.md rules R110 and R111). -/
def product (p q : Byte) : Byte := BitVec.ofNat 8 (p.toNat * q.toNat)

/-- The ASCII digit of a number below 10. -/
def digit (n : Nat) : Byte := BitVec.ofNat 8 (0x30 + n)

/-- `dec(v)`: the decimal spelling in ASCII digits, without sign and without leading zeros
(41_ldi_prn.md rule R101, decision D9, log entry 9). -/
def decimal (v : Byte) : List Byte :=
  let n := v.toNat
  if n < 10 then [digit n]
  else if n < 100 then [digit (n / 10), digit (n % 10)]
  else [digit (n / 100), digit (n / 10 % 10), digit (n % 10)]

/-- What PRINT-REGISTER emits for a value: `dec(v)` and the one byte 0x0A (rule R101). -/
def printedLine (v : Byte) : List Byte := decimal v ++ [0x0A#8]

end Sys2Proof.Machine
end

