-- ==== Sys2Proof/Machine/CallRet.lean ====
section
/-! DEFINITION. CALL and RETURN (44_call_ret.md), the only control transfers. -/

namespace Sys2Proof.Machine

/-- The return address of CALL, `pc + 2`, as the byte that is pushed. It fits: a cycle reaches its
handler only if pc is at most 253 (rules R87 and R130; log entry 11 for a larger pc). -/
def returnAddress (s : State) : Byte := BitVec.ofNat 8 (s.pc + 2)

/-- The handler of CALL: the return address is pushed, then the target is read (rules R130 and
R132). -/
def handleCall (r : Nat) (s : State) : Handled := do
  let t ← stepSpDown s
  let u ← memWrite (pushAddress s) (returnAddress s) t
  let target ← readReg r u
  .ok (u, .jump target)

/-- CALL (rule R130). -/
def execCall (r : Nat) (s : State) : Host.Outcome State Fault Refusal :=
  conclude 1 s (handleCall r s)

/-- The handler of RETURN: the top of the stack is read, then the stack pointer steps up
(rule R131). -/
def handleRet (s : State) : Handled := do
  let target ← memRead (popAddress s) s
  let t ← stepSpUp s
  .ok (t, .jump target)

/-- RETURN (rule R131). -/
def execRet (s : State) : Host.Outcome State Fault Refusal :=
  conclude 0 s (handleRet s)

end Sys2Proof.Machine
end

