-- ==== Sys2Proof/Syntax.lean ====
section
/-! DEFINITION. The eight instructions of 30_encoding.md rule R66, one constructor per row of
opcode_table.json. An opcode byte without a handler is no instruction: what the machine does with
one is `Sys2Proof.Machine.stepOverUnknown`. -/

namespace Sys2Proof

/-- An instruction. A register operand is the whole operand byte read as a register index
(rules R9 and R64: 0 to 7 name a register, 8 to 255 are encodable and raise `OutOfBounds` when the
instruction executes), so it is an index; an immediate operand is a byte (rule R65). -/
inductive Instr where
  /-- LOAD-IMMEDIATE `LDI Rr, v` (rule R100). -/
  | ldi (reg : Nat) (value : Byte)
  /-- PRINT-REGISTER `PRN Rr` (rule R101). -/
  | prn (reg : Nat)
  /-- MULTIPLY `MUL Ra, Rb` (rule R110). -/
  | mul (regA regB : Nat)
  /-- PUSH `PUSH Rr` (rule R120). -/
  | push (reg : Nat)
  /-- POP `POP Rr` (rule R121). -/
  | pop (reg : Nat)
  /-- CALL `CALL Rr` (rule R130). -/
  | call (reg : Nat)
  /-- RETURN `RET` (rule R131). -/
  | ret
  /-- HALT `HLT` (rule R140). -/
  | hlt
deriving DecidableEq, Repr

end Sys2Proof
end

