-- ==== Sys2Proof/WellFormed.lean ====
section
/-! DEFINITION. When an instruction has an encoding, and when a choice of the open opcode bytes
and exit statuses is one the spec admits (00_scope.md rule R7). -/

namespace Sys2Proof

/-- A register operand fits its operand byte (30_encoding.md rule R64). -/
def fitsOperandByte (index : Nat) : Bool := index < 256

/-- The instruction has an encoding: each register operand fits its byte. -/
def Instr.wellFormed : Instr → Bool
  | .ldi r _ => fitsOperandByte r
  | .prn r   => fitsOperandByte r
  | .mul a b => fitsOperandByte a && fitsOperandByte b
  | .push r  => fitsOperandByte r
  | .pop r   => fitsOperandByte r
  | .call r  => fitsOperandByte r
  | .ret     => true
  | .hlt     => true

/-- An opcode byte has `count` in bits 7:6 and `setsPc` in bit 4. -/
def hasShape (o : Byte) (count : BitVec 2) (setsPc : Bool) : Bool :=
  o.extractLsb' 6 2 == count && o.getLsbD 4 == setsPc

/-- The constraints of rule R7 on the four open opcode bytes. Values that break them are no
parameter of this hardware (rule R84 and 93_implementation_defined.md U1: refuse). -/
def Opcodes.admissible (ops : Opcodes) : Bool :=
  hasShape ops.mul 0b10#2 false && ops.mul != 0x82#8 &&
  hasShape ops.push 0b01#2 false && ops.push != 0x47#8 && ops.push != ops.pop &&
  hasShape ops.pop 0b01#2 false && ops.pop != 0x47#8 &&
  hasShape ops.call 0b01#2 true

/-- The constraints of rule R7 on the two open exit statuses. -/
def ExitCodes.admissible (e : ExitCodes) : Bool :=
  e.fatal != 0 && e.load != 0 && e.load != e.fatal

end Sys2Proof
end

