-- ==== Sys2Proof/Decode.lean ====
section
/-! DEFINITION. The Decoder and the handler multiplexer of 40_fetch_decode_dispatch.md rules R80
and R83, the decoding of a fetch window into an instruction, and the encoder of 30_encoding.md. -/

namespace Sys2Proof

/-! ## The Decoder -/

/-- The Decoder's output `operand_count = opcode >> 6` (rules R80 and R81: 0 to 3). -/
def operandCount (o : Byte) : Nat := (o >>> 6).toNat

/-- The Decoder's output `sets_pc = ((opcode >> 4) & 1) == 1` (rule R80). -/
def setsPc (o : Byte) : Bool := ((o >>> 4) &&& 1#8) == 1#8

/-! ## The handler multiplexer -/

/-- The eight handlers. The ninth selection of rule R83, `NONE`, is `none` of `Option Handler`. -/
inductive Handler where
  | ldi | prn | mul | push | pop | call | ret | hlt
deriving DecidableEq, Repr

/-- The opcode byte of a handler (30_encoding.md rule R66). -/
def Handler.opcode (ops : Opcodes) : Handler → Byte
  | .ldi  => 0b10000010#8
  | .prn  => 0b01000111#8
  | .mul  => ops.mul
  | .push => ops.push
  | .pop  => ops.pop
  | .call => ops.call
  | .ret  => 0b00010001#8
  | .hlt  => 0b00000001#8

/-- The handlers in the order of the opcode table. -/
def Handler.all : List Handler := [.ldi, .prn, .mul, .push, .pop, .call, .ret, .hlt]

/-- The eight opcode bytes that have a handler. -/
def knownOpcodes (ops : Opcodes) : List Byte := Handler.all.map (Handler.opcode ops)

/-- The handler multiplexer: keyed by the whole opcode byte (rules R67 and R83). -/
def select (ops : Opcodes) (o : Byte) : Option Handler :=
  Handler.all.find? fun h => h.opcode ops == o

/-- The instruction a handler executes on the operand bytes `a` and `b`, each taken whole
(rules R63 to R65); a handler of fewer operands ignores the rest (rule R85). -/
def Handler.instr (a b : Byte) : Handler → Instr
  | .ldi  => .ldi a.toNat b
  | .prn  => .prn a.toNat
  | .mul  => .mul a.toNat b.toNat
  | .push => .push a.toNat
  | .pop  => .pop a.toNat
  | .call => .call a.toNat
  | .ret  => .ret
  | .hlt  => .hlt

/-- The instruction of a fetch window: the opcode byte and the two bytes after it (rule R87).
`none` is the unknown opcode of rule R141. -/
def decodeWindow (ops : Opcodes) (o a b : Byte) : Option Instr :=
  (select ops o).map (Handler.instr a b)

/-- Why a byte sequence holds no instruction at its front. -/
inductive DecodeError where
  /-- The first byte selects no handler (rule R69). -/
  | unknownOpcode (o : Byte)
  /-- Fewer bytes than the three every cycle fetches (rule R87). -/
  | shortWindow (length : Nat)
deriving DecidableEq, Repr

/-- Decoding, total on any bytes: the first three are the fetch window. -/
def decode (ops : Opcodes) : List Byte → Except DecodeError Instr
  | o :: a :: b :: _ =>
    match decodeWindow ops o a b with
    | some i => .ok i
    | none   => .error (.unknownOpcode o)
  | short => .error (.shortWindow short.length)

/-! ## Words as opcode_table.json numbers them -/

/-- The three bytes of a fetch window that hold the instruction whose bits are `w`: the first byte
is bits 7:0, the second bits 15:8, the third bits 23:16, and every bit from `nbits` up is 0. -/
def tableWordBytes (nbits w : Nat) : Byte × Byte × Byte :=
  let v := w % 2 ^ nbits
  (BitVec.ofNat 8 v, BitVec.ofNat 8 (v / 2 ^ 8), BitVec.ofNat 8 (v / 2 ^ 16))

/-- The instruction the decoder reads from a word of the opcode table. -/
def decodeTableWord (nbits w : Nat) : Option Instr :=
  let (o, a, b) := tableWordBytes nbits w
  decodeWindow Config.opcodes o a b

/-! ## The encoder -/

/-- The bytes of an instruction in address order (30_encoding.md rules R60 and R66). -/
def encode (ops : Opcodes) : Instr → List Byte
  | .ldi r v => [Handler.ldi.opcode ops, BitVec.ofNat 8 r, v]
  | .prn r   => [Handler.prn.opcode ops, BitVec.ofNat 8 r]
  | .mul a b => [Handler.mul.opcode ops, BitVec.ofNat 8 a, BitVec.ofNat 8 b]
  | .push r  => [Handler.push.opcode ops, BitVec.ofNat 8 r]
  | .pop r   => [Handler.pop.opcode ops, BitVec.ofNat 8 r]
  | .call r  => [Handler.call.opcode ops, BitVec.ofNat 8 r]
  | .ret     => [Handler.ret.opcode ops]
  | .hlt     => [Handler.hlt.opcode ops]

end Sys2Proof
end

