-- ==== Sys2Proof/Machine/Halt.lean ====
section
/-! DEFINITION. HALT, and the opcode byte without a handler (45_hlt_unknown.md). -/

namespace Sys2Proof.Machine

/-- The handler of HALT (rule R140). -/
def handleHlt (s : State) : Handled := .ok (s.withRun .halted, .advance)

/-- HALT: the update of pc still takes place (rule R140). -/
def execHlt (s : State) : Host.Outcome State Fault Refusal := conclude 0 s (handleHlt s)

/-- The unknown opcode: a logged no-op of the width the Decoder gives, bit 4 ignored (rules R141
and R142; decision D7, log entry 6). -/
def stepOverUnknown (o : Byte) (s : State) : Host.Outcome State Fault Refusal :=
  conclude (operandCount o) s (.ok (s.logWarning ⟨s.pc, o⟩, .advance))

end Sys2Proof.Machine
end

