-- ==== Sys2Proof/Machine/LdiPrn.lean ====
section
/-! DEFINITION. LOAD-IMMEDIATE and PRINT-REGISTER (41_ldi_prn.md). -/

namespace Sys2Proof.Machine

/-- The handler of LOAD-IMMEDIATE (rule R100). -/
def handleLdi (r : Nat) (v : Byte) (s : State) : Handled := do
  let t ← writeReg r v s
  .ok (t, .advance)

/-- LOAD-IMMEDIATE (rule R100). -/
def execLdi (r : Nat) (v : Byte) (s : State) : Host.Outcome State Fault Refusal :=
  conclude 2 s (handleLdi r v s)

/-- The handler of PRINT-REGISTER (rule R101). -/
def handlePrn (r : Nat) (s : State) : Handled := do
  let v ← readReg r s
  .ok (s.emit (printedLine v), .advance)

/-- PRINT-REGISTER (rule R101). -/
def execPrn (r : Nat) (s : State) : Host.Outcome State Fault Refusal :=
  conclude 1 s (handlePrn r s)

end Sys2Proof.Machine
end

