-- ==== Sys2Proof/Machine/Mul.lean ====
section
/-! DEFINITION. MULTIPLY (42_mul.md). -/

namespace Sys2Proof.Machine

/-- The handler of MULTIPLY: both factors are read, `x[a]` first, before the product is written
(rule R110). -/
def handleMul (a b : Nat) (s : State) : Handled := do
  let p ← readReg a s
  let q ← readReg b s
  let t ← writeReg a (product p q) s
  .ok (t, .advance)

/-- MULTIPLY (rule R110). -/
def execMul (a b : Nat) (s : State) : Host.Outcome State Fault Refusal :=
  conclude 2 s (handleMul a b s)

end Sys2Proof.Machine
end

