-- ==== Sys2Proof/Machine/PushPop.lean ====
section
/-! DEFINITION. PUSH and POP (43_push_pop.md). The statements of a handler are in the order of its
rule, each complete before the next (decision D16, log entry 8), which decides what register 7 does
as the explicit operand (rule R122). -/

namespace Sys2Proof.Machine

/-- The handler of PUSH: the stack pointer steps down, then the register is read and stored at the
new top (rule R120). -/
def handlePush (r : Nat) (s : State) : Handled := do
  let t ← stepSpDown s
  let v ← readReg r t
  let u ← memWrite (pushAddress s) v t
  .ok (u, .advance)

/-- PUSH (rule R120). -/
def execPush (r : Nat) (s : State) : Host.Outcome State Fault Refusal :=
  conclude 1 s (handlePush r s)

/-- The handler of POP: the top is read and written to the register, then the stack pointer, read
again, steps up (rule R121). So `POP R7` at a stack pointer of 255 completes where the byte at 255
is not 255, as rule R122 has it; for the prose of rules R121 and R190, which calls every POP there
fatal, see log entry 23 (DESIGN CHOICE, unsafe). -/
def handlePop (r : Nat) (s : State) : Handled := do
  let v ← memRead (popAddress s) s
  let t ← writeReg r v s
  let u ← stepSpUp t
  .ok (u, .advance)

/-- POP (rule R121). -/
def execPop (r : Nat) (s : State) : Host.Outcome State Fault Refusal :=
  conclude 1 s (handlePop r s)

end Sys2Proof.Machine
end

