-- ==== Sys2Proof/Machine/Step.lean ====
section
/-! DEFINITION. One cycle of the Execution Loop (40_fetch_decode_dispatch.md rules R86 to R93). -/

namespace Sys2Proof.Machine

/-- The dispatch of a fetched window (rule R88): the selected handler, or the unknown opcode. -/
def dispatch (ops : Opcodes) (w : FetchWindow) (s : State) : Host.Outcome State Fault Refusal :=
  match decodeWindow ops w.opcode w.a w.b with
  | some i => exec i s
  | none   => stepOverUnknown w.opcode s

/-- One cycle under any choice of the open opcode bytes (rule R7): defined only while `RUN` is
`Running` (rules R90 and R93); a fault of the fetch aborts before any handler runs (rule R87). -/
def stepWith (ops : Opcodes) (s : State) : Host.Outcome State Fault Refusal :=
  match s.run with
  | .halted       => .fault .halted
  | .aborted info => .fault (.aborted info)
  | .running      =>
    match fetch s with
    | .error info => .next (abort info s)
    | .ok w       => dispatch ops w s

/-- One cycle of the machine with the opcode bytes of `Config.opcodes`. -/
def step (s : State) : Host.Outcome State Fault Refusal := stepWith Config.opcodes s

/-- `s` with the instruction whose bits are `w` stored where the next cycle fetches. -/
def State.withFetchWord (s : State) (nbits w : Nat) : State :=
  let (o, a, b) := tableWordBytes nbits w
  placeFetchWindow ⟨o, a, b⟩ s

end Sys2Proof.Machine
end

