-- ==== Sys2Proof/Machine/ProgramText.lean ====
section
/-! DEFINITION. The program text of 30_encoding.md rule R72 and the assembly notation of rule R73.
Both are notation: no behaviour of the core depends on them (decision D13, log entry 18), and
reading a file is outside the block (00_scope.md rule R5). -/

namespace Sys2Proof.Machine

/-! ## Characters and digits -/

/-- A text without white space at either end. -/
def trim (text : List Char) : List Char :=
  ((text.dropWhile Char.isWhitespace).reverse.dropWhile Char.isWhitespace).reverse

/-- The value of a digit of base 16 or less. -/
def digitValue (c : Char) : Option Nat :=
  if '0' ≤ c ∧ c ≤ '9' then some (c.toNat - 0x30)
  else if 'A' ≤ c ∧ c ≤ 'F' then some (c.toNat - 0x37)
  else if 'a' ≤ c ∧ c ≤ 'f' then some (c.toNat - 0x57)
  else none

/-- The value of digits in a base, the most significant first, after the digits of value `acc`. -/
def digitsValue (base : Nat) : List Char → Nat → Option Nat
  | [],      acc => some acc
  | c :: cs, acc => do
    let d ← digitValue c
    if d < base then digitsValue base cs (base * acc + d) else none

/-! ## Program text -/

/-- A line that is neither blank nor eight binary digits; the spec says nothing of one. -/
inductive TextError where
  | malformedLine (line : List Char)
deriving DecidableEq, Repr

/-- A line without its comment and without white space around what is left. -/
def stripLine (line : List Char) : List Char := trim (line.takeWhile (· ≠ '#'))

/-- The byte of one line: none for a blank one (rule R72). -/
def byteOfLine (line : List Char) : Except TextError (Option Byte) :=
  let code := stripLine line
  if code = [] then .ok none
  else if code.length ≠ 8 then .error (.malformedLine line)
  else
    match digitsValue 2 code 0 with
    | some n => .ok (some (BitVec.ofNat 8 n))
    | none   => .error (.malformedLine line)

/-- The program image of a text, one byte per line that is not blank. -/
def imageOfText : List (List Char) → Except TextError (List Byte)
  | []            => .ok []
  | line :: lines => do
    let v ← byteOfLine line
    let vs ← imageOfText lines
    .ok (v.toList ++ vs)

/-- A byte as the text spells it: eight binary digits, the most significant first. -/
def lineOfByte (v : Byte) : List Char :=
  (List.range 8).reverse.map fun k => if v.getLsbD k then '1' else '0'

/-! ## Assembly -/

/-- One item of an assembly listing: an instruction, or the directive `.byte v` (rules R73 and
R74). -/
inductive AsmItem where
  | instr (i : Instr)
  | rawByte (v : Byte)
deriving DecidableEq, Repr

/-- The bytes an item stands for, operands in the order written (rule R73). -/
def AsmItem.bytes (ops : Opcodes) : AsmItem → List Byte
  | .instr i   => encode ops i
  | .rawByte v => [v]

/-- A register operand in assembly: `R0` to `R255`. -/
def registerText (r : Nat) : String := "R" ++ toString r

/-- An instruction in assembly, operands in the order of its bytes (rule R73). -/
def assembly : Instr → String
  | .ldi r v => "LDI " ++ registerText r ++ ", " ++ toString v.toNat
  | .prn r   => "PRN " ++ registerText r
  | .mul a b => "MUL " ++ registerText a ++ ", " ++ registerText b
  | .push r  => "PUSH " ++ registerText r
  | .pop r   => "POP " ++ registerText r
  | .call r  => "CALL " ++ registerText r
  | .ret     => "RET"
  | .hlt     => "HLT"

/-- A number below 256 in a base, with at least one digit. -/
def byteOfDigits (base : Nat) (digits : List Char) : Option Byte :=
  if digits = [] then none
  else (digitsValue base digits 0).bind fun n => if n < 256 then some (BitVec.ofNat 8 n) else none

/-- A byte operand: decimal, `0x` hexadecimal or `0b` binary (rule R73). -/
def byteOperand : List Char → Option Byte
  | '0' :: 'x' :: digits => byteOfDigits 16 digits
  | '0' :: 'b' :: digits => byteOfDigits 2 digits
  | digits               => byteOfDigits 10 digits

/-- A register operand: `R` and a decimal index 0 to 255 (rule R73). -/
def registerOperand : List Char → Option Nat
  | 'R' :: digits => (byteOfDigits 10 digits).map BitVec.toNat
  | _             => none

/-- The operands of an item, between commas. -/
def operandTexts (text : List Char) : List (List Char) :=
  if trim text = [] then [] else (text.splitOn ',').map trim

/-- The item a line of assembly names (rule R73); none where the line is not in the notation. -/
def asmItem (line : List Char) : Option AsmItem :=
  let code := trim line
  let name := code.takeWhile fun c => !c.isWhitespace
  match name, operandTexts (code.drop name.length) with
  | ['L', 'D', 'I'], [r, v] => do
    let r ← registerOperand r
    let v ← byteOperand v
    return .instr (.ldi r v)
  | ['P', 'R', 'N'], [r] => do return .instr (.prn (← registerOperand r))
  | ['M', 'U', 'L'], [a, b] => do
    let a ← registerOperand a
    let b ← registerOperand b
    return .instr (.mul a b)
  | ['P', 'U', 'S', 'H'], [r] => do return .instr (.push (← registerOperand r))
  | ['P', 'O', 'P'], [r] => do return .instr (.pop (← registerOperand r))
  | ['C', 'A', 'L', 'L'], [r] => do return .instr (.call (← registerOperand r))
  | ['R', 'E', 'T'], [] => some (.instr .ret)
  | ['H', 'L', 'T'], [] => some (.instr .hlt)
  | ['.', 'b', 'y', 't', 'e'], [v] => (byteOperand v).map .rawByte
  | _, _ => none

end Sys2Proof.Machine
end

