-- ==== Sys2Proof/Machine/Loader.lean ====
section
/-! DEFINITION. How a run begins and how it ends, seen from the host: the load contract of
70_reset_and_hazards.md rules R180 to R182, `ProgramLoadFailure` (60_exceptions.md rule R157), the
exit status (rule R158) and the observable result of an ended run (rule R184). -/

namespace Sys2Proof.Machine

/-! ## The load -/

/-- The loader's writes: the bytes at ascending addresses from `a`, each by the bounds-checked
write of rule R41 (20_memory.md rule R56). -/
def loadFrom (a : Nat) : List Byte → State → Except OutOfBounds State
  | [],      s => .ok s
  | v :: vs, s => do
    let t ← memWrite a v s
    loadFrom (a + 1) vs t

/-- The load of an image at `ORIGIN`; one that does not fit aborts the run before any cycle, with
nothing placed (rules R181 and R182, decision D12, log entry 10). -/
def load (image : List Byte) (s : State) : State :=
  match loadFrom Config.origin image s with
  | .ok t       => t
  | .error info => abort info s

/-- What the loader brings: an image, or the path it could not read. -/
inductive Program where
  | image (bytes : List Byte)
  | unreadable (path : String)
deriving DecidableEq, Repr

/-- What the host sees at the start of a run: the core about to run its first cycle, or a
`ProgramLoadFailure`, in which the core does not run (rule R157). -/
inductive Start where
  | core (s : State)
  | programLoadFailure (path : String)
deriving DecidableEq, Repr

/-- Reset, then load (rule R180). -/
def start (v : ResetValues) : Program → Start
  | .image bytes     => .core (load bytes (State.resetWith v))
  | .unreadable path => .programLoadFailure path

/-! ## The end of a run -/

/-- The exit status of a run of the core; a run that has not ended has none (rule R158). -/
def exitStatus (e : ExitCodes) : RunState → Option Int
  | .running   => none
  | .halted    => some 0
  | .aborted _ => some e.fatal

/-- The exit status at the start of a run, if it ends there (rules R157, R158 and R182). -/
def Start.exitStatus (e : ExitCodes) : Start → Option Int
  | .core s               => Machine.exitStatus e s.run
  | .programLoadFailure _ => some e.load

/-- The observable result of an ended run (rule R184). -/
structure Observed where
  out    : List Byte
  status : Int
  record : Option OutOfBounds
deriving DecidableEq, Repr

/-- The fatal record, if the run was aborted. -/
def RunState.record : RunState → Option OutOfBounds
  | .aborted info => some info
  | _             => none

/-- What the host reads of the core: nothing before the run has ended (rule R184). -/
def observe (e : ExitCodes) (s : State) : Option Observed :=
  (exitStatus e s.run).map fun status => ⟨s.out, status, s.run.record⟩

end Sys2Proof.Machine
end

