-- ==== Sys2Proof/Safety.lean ====
section
/-! DEFINITION. The terms of the claims: when a run has ended, what makes a cycle abort, written as
the table of 60_exceptions.md rule R153, and the invariant of every run. -/

namespace Sys2Proof.Machine

/-- A run has ended when `RUN` is `Halted` or `Aborted` (70_reset_and_hazards.md rule R184). -/
abbrev State.ended (s : State) : Prop := s.run ≠ .running

/-- The opcode byte of the next cycle, where it can be fetched. -/
abbrev State.opcodeByte (s : State) : Byte := s.mem.read s.pc

/-- The first operand byte of the next cycle, where it can be fetched. -/
abbrev State.operandA (s : State) : Byte := s.mem.read (s.pc + 1)

/-- The second operand byte of the next cycle, where it can be fetched. -/
abbrev State.operandB (s : State) : Byte := s.mem.read (s.pc + 2)

/-- The rows of rule R153 for the fetch. -/
def fetchCause (s : State) : Option OutOfBounds :=
  if s.pc ≤ 253 then none
  else if s.pc ≤ 255 then some ⟨.mem, 256, s.pc⟩
  else some ⟨.mem, s.pc, s.pc⟩

/-- A register operand as the rows of rule R153 test it. -/
def registerCause (r : Nat) (s : State) : Option OutOfBounds :=
  if r ≤ 7 then none else some ⟨.reg, r, s.pc⟩

/-- The stack pointer as the PUSH and CALL rows of rule R153 test it. -/
def pushCause (s : State) : Option OutOfBounds :=
  if s.sp = 0x00#8 then some ⟨.mem, -1, s.pc⟩ else none

/-- The stack pointer `top` as the POP and RETURN rows of rule R153 test it. -/
def popCause (top : Byte) (s : State) : Option OutOfBounds :=
  if top = 0xFF#8 then some ⟨.mem, 256, s.pc⟩ else none

/-- The rows of rule R153 for the handlers: what an instruction raises, if anything, the first
cause that applies (rule R156). -/
def handlerCause (i : Instr) (s : State) : Option OutOfBounds :=
  match i with
  | .ldi r _ => registerCause r s
  | .prn r   => registerCause r s
  | .mul a b => (registerCause a s).or (registerCause b s)
  | .push r  => (pushCause s).or (registerCause r s)
  | .pop r   =>
    (registerCause r s).or (popCause (if r = 7 then s.mem.read s.sp.toNat else s.sp) s)
  | .call r  => (pushCause s).or (registerCause r s)
  | .ret     => popCause s.sp s
  | .hlt     => none

/-- What a cycle raises, if anything (rules R153 and R156). -/
def cycleCause (ops : Opcodes) (s : State) : Option OutOfBounds :=
  (fetchCause s).or
    ((decodeWindow ops s.opcodeByte s.operandA s.operandB).bind fun i => handlerCause i s)

/-- A cycle that runs and raises nothing. -/
abbrev State.safeCycle (ops : Opcodes) (s : State) : Prop :=
  s.run = .running ∧ cycleCause ops s = none

/-- The run of a number of cycles, which stops where no cycle runs (rule R90). -/
def runCycles (ops : Opcodes) : Nat → State → Host.Outcome State Fault Refusal
  | 0,     s => .next s
  | n + 1, s =>
    match stepWith ops s with
    | .next t    => runCycles ops n t
    | .fault r   => .fault r
    | .refused r => .refused r

/-- The number that decimal digits in ASCII spell. -/
def decimalValue (digits : List Byte) : Nat :=
  digits.foldl (fun n d => 10 * n + (d.toNat - 0x30)) 0

/-- An ASCII digit. -/
abbrev isDigit (d : Byte) : Prop := 0x30 ≤ d.toNat ∧ d.toNat ≤ 0x39

/-- `line` is a decimal number, spelled in all the ASCII digits it begins with, and something that
ends it (41_ldi_prn.md rule R101: what the source itself says of a printed line). -/
def spellsNumber (line : List Byte) (n : Nat) : Prop :=
  ∃ (digits : List Byte) (stop : Byte) (rest : List Byte), line = digits ++ stop :: rest ∧
    digits ≠ [] ∧ (∀ d ∈ digits, isDigit d) ∧ ¬ isDigit stop ∧ decimalValue digits = n

/-- The records `OutOfBounds` can leave (rule R154): a register index 8 to 255, or an address
that is −1 or the first ones past the end of memory. -/
abbrev OutOfBounds.legal (info : OutOfBounds) : Prop :=
  match info.kind with
  | .reg => 8 ≤ info.index ∧ info.index ≤ 255
  | .mem => info.index = -1 ∨ (256 ≤ info.index ∧ info.index ≤ 257)

/-- What holds of the machine before and after every cycle, whatever the open opcode bytes are. -/
structure State.Inv (ops : Opcodes) (s : State) : Prop where
  /-- Memory is in canonical form and inside its 256 bytes (rule R20). -/
  memory_canonical : s.mem.wf
  /-- pc never passes 257 (rule R25). -/
  pc_bounded : s.pc ≤ 257
  /-- `OUT` is nothing but printed lines (rules R28 and R101). -/
  out_printed : ∃ printed : List Byte, s.out = printed.flatMap printedLine
  /-- Every entry of `WARN` is an opcode without a handler, at an address a cycle can fetch from
  (rules R29, R87 and R141). -/
  warnings_unknown : ∀ w ∈ s.warn, w.pc ≤ 253 ∧ w.opcode ∉ knownOpcodes ops
  /-- A fatal record is one of those the machine can leave, and names the pc (rule R154). -/
  record_legal : ∀ info, s.run = .aborted info → info.legal ∧ info.pc = s.pc

end Sys2Proof.Machine
end

