-- ==== Sys2Proof/Certificates/Slice0/Obligations.lean ====
section
/-! DEFINITION. The statements about the machine, for the provers. `ops` ranges over every choice of
the opcode bytes the source leaves open; where a statement needs them to be ones rule R7 admits, it
says so. A statement that rests on a decision of the spec (92_eei_decisions.md) or on a choice of
the model names it. -/

open Sys2Proof Sys2Proof.Machine

/-! ## Encoding -/

/-- One word of each family, and three that hold no instruction, written from
30_encoding.md rule R66 (the last four opcodes by decision D3, log entry 1). -/
def Obligations.TableWordsDecodeAsWritten : Prop :=
  decodeTableWord 24 0x080082 = some (.ldi 0 0x08#8) ∧
  decodeTableWord 16 0xFF47 = some (.prn 255) ∧
  decodeTableWord 24 0xC801A2 = some (.mul 1 200) ∧
  decodeTableWord 16 0x0745 = some (.push 7) ∧
  decodeTableWord 16 0x0146 = some (.pop 1) ∧
  decodeTableWord 16 0x0150 = some (.call 1) ∧
  decodeTableWord 8 0x11 = some .ret ∧
  decodeTableWord 8 0x01 = some .hlt ∧
  decodeTableWord 8 0x00 = none ∧
  decodeTableWord 8 0x07 = none ∧
  decodeTableWord 8 0xFF = none

/-- Rules R80 and R82: the Decoder's outputs are bits 7:6 and bit 4 of the opcode, no other bit
reaches them, and the values the source gives for 0x82, 0x11 and 0xFF. -/
def Obligations.DecoderExtractsCountAndSetsPc : Prop :=
  (∀ o : Byte, operandCount o = o.toNat / 64 ∧ (setsPc o = true ↔ o.toNat / 16 % 2 = 1)) ∧
  (∀ o o' : Byte, o.extractLsb' 6 2 = o'.extractLsb' 6 2 → o.getLsbD 4 = o'.getLsbD 4 →
    operandCount o = operandCount o' ∧ setsPc o = setsPc o') ∧
  (operandCount 0x82#8 = 2 ∧ setsPc 0x82#8 = false) ∧
  (operandCount 0x11#8 = 0 ∧ setsPc 0x11#8 = true) ∧
  operandCount 0xFF#8 = 3

/-- Handlers agree with their encoding (40_fetch_decode_dispatch.md rules R84, R85 and R89): the
eight opcodes of rule R66 meet the constraints of rule R7, and under these constraints an
instruction of k operand bytes has an opcode with bits 7:6 = k, and the opcodes of CALL and RETURN,
and no others, have bit 4 set; where it is clear an instruction that raises nothing advances pc by
1 + k, and where it is set pc is the register CALL names, read after the push (44_call_ret.md
rules R130 and R132, decision D16, log entry 8), or the byte RETURN pops (rule R131). `POP R7`
at a stack pointer of 255 is among those that raise nothing, where the byte at 255 is another: log
entry 23. -/
def Obligations.HandlersAgreeWithTheirEncoding : Prop :=
  Config.opcodes.admissible ∧
  ∀ (ops : Opcodes) (i : Instr), ops.admissible → ∃ o rest, encode ops i = o :: rest ∧
    operandCount o = rest.length ∧ (setsPc o = true ↔ (∃ r, i = .call r) ∨ i = .ret) ∧
    ∀ s : State, handlerCause i s = none → ∃ t, exec i s = .next t ∧
      (setsPc o = false → t.pc = s.pc + 1 + operandCount o) ∧
      (setsPc o = true → (∃ (r : Nat) (hr : r < 8), i = .call r ∧ t.pc = (t.regs[r]).toNat) ∨
        i = .ret ∧ t.pc = (s.mem.read s.sp.toNat).toNat)

/-- Under the constraints of rule R7 the multiplexer selects each handler by its own byte and no
other, and nothing for exactly 248 of the 256 bytes (rules R69 and R83; the open bytes are
decision D3, log entry 1, and the closed set decision D15, log entry 19). -/
def Obligations.MultiplexerSelectsEightBytes : Prop :=
  ∀ ops : Opcodes, ops.admissible →
    (∀ (o : Byte) (h : Handler), select ops o = some h ↔ o = h.opcode ops) ∧
    ((List.range 256).filter fun n => (select ops (BitVec.ofNat 8 n)).isNone).length = 248

/-- Decoding gives back every well-formed instruction from its bytes, whatever bytes follow, under
every admissible choice of the open opcode bytes. -/
def Obligations.DecodeInvertsEncode : Prop :=
  ∀ (ops : Opcodes) (i : Instr) (rest : List Byte), ops.admissible → i.wellFormed →
    3 ≤ (encode ops i ++ rest).length → decode ops (encode ops i ++ rest) = .ok i

/-- The other direction: whatever is decoded is well-formed and its encoding is what stands at the
front of the bytes, so each opcode and operand byte has one meaning. -/
def Obligations.EncodeInvertsDecode : Prop :=
  ∀ (ops : Opcodes) (bytes : List Byte) (i : Instr), decode ops bytes = .ok i →
    i.wellFormed ∧ encode ops i <+: bytes ∧ 3 ≤ bytes.length

/-- What decoding rejects, and by which name: an opcode byte that is none of the eight, and bytes
that do not fill a fetch window. -/
def Obligations.DecodeRejectsByName : Prop :=
  ∀ (ops : Opcodes) (bytes : List Byte),
    (∀ o, decode ops bytes = .error (.unknownOpcode o) ↔
      ∃ a b rest, bytes = o :: a :: b :: rest ∧ o ∉ knownOpcodes ops) ∧
    (∀ n, decode ops bytes = .error (.shortWindow n) ↔ bytes.length = n ∧ n < 3)

/-! ## Memory and registers -/

/-- Rule R40. -/
def Obligations.MemReadIsBoundsChecked : Prop :=
  ∀ (a : Int) (s : State),
    (0 ≤ a ∧ a ≤ 255 → memRead a s = .ok (s.mem.read a.toNat)) ∧
    (a < 0 ∨ 255 < a → memRead a s = .error ⟨.mem, a, s.pc⟩)

/-- Rule R41: a write inside memory is what the next read of its address returns, and changes
nothing else; a write outside raises. -/
def Obligations.MemWriteChangesOneByte : Prop :=
  ∀ (a : Int) (v : Byte) (s : State),
    (0 ≤ a ∧ a ≤ 255 → ∃ t, memWrite a v s = .ok t ∧ memRead a t = .ok v ∧
      (∀ b : Int, b ≠ a → memRead b t = memRead b s) ∧
      t.regs = s.regs ∧ t.pc = s.pc ∧ t.run = s.run ∧ t.out = s.out ∧ t.warn = s.warn) ∧
    (a < 0 ∨ 255 < a → memWrite a v s = .error ⟨.mem, a, s.pc⟩)

/-- The register file is read and written by the whole index, bounds-checked (10_state.md rule R23,
decision D17, log entry 16). -/
def Obligations.RegisterAccessIsBoundsChecked : Prop :=
  ∀ (i : Nat) (v : Byte) (s : State),
    (i < 8 → ∃ t, writeReg i v s = .ok t ∧ readReg i t = .ok v ∧
      (∀ j, j ≠ i → readReg j t = readReg j s) ∧
      (∀ a, t.mem.read a = s.mem.read a) ∧
      t.pc = s.pc ∧ t.run = s.run ∧ t.out = s.out ∧ t.warn = s.warn) ∧
    (8 ≤ i → readReg i s = .error ⟨.reg, i, s.pc⟩ ∧ writeReg i v s = .error ⟨.reg, i, s.pc⟩)

/-! ## The instructions -/

/-- Rule R100, LOAD-IMMEDIATE: its bytes, its effect and frame, that the old value is not read,
that register 7 sets where the next PUSH stores, that PRINT-REGISTER then prints the value in
decimal, and its fault: no register changes, pc does not advance and the run aborts. -/
def Obligations.LdiLoadsItsRegister : Prop :=
  (∀ (ops : Opcodes) (a b : Byte) (rest : List Byte),
    decode ops (0x82#8 :: a :: b :: rest) = .ok (.ldi a.toNat b)) ∧
  (operandCount 0x82#8 = 2 ∧ setsPc 0x82#8 = false) ∧
  (∀ (r : Nat) (hr : r < 8) (v : Byte) (s : State), ∃ t, exec (.ldi r v) s = .next t ∧
    t.regs[r] = v ∧ (∀ (j : Nat) (hj : j < 8), j ≠ r → t.regs[j] = s.regs[j]) ∧
    (∀ a, t.mem.read a = s.mem.read a) ∧
    t.pc = s.pc + 3 ∧ t.run = s.run ∧ t.out = s.out ∧ t.warn = s.warn ∧
    (∀ old : Byte, exec (.ldi r v) { s with regs := s.regs.set r old } = .next t) ∧
    (r = 7 → pushAddress t = (v.toNat : Int) - 1) ∧
    ∃ u line, exec (.prn r) t = .next u ∧ u.out = s.out ++ line ∧ spellsNumber line v.toNat) ∧
  (∀ (r : Nat) (v : Byte) (s : State), 8 ≤ r → ∃ t, exec (.ldi r v) s = .next t ∧
    t.run = .aborted ⟨.reg, r, s.pc⟩ ∧ t.regs = s.regs ∧ t.pc = s.pc)

/-- PRINT-REGISTER (41_ldi_prn.md rule R101): it appends the decimal spelling and the byte 0x0A,
and changes nothing else; on a bad index nothing is emitted. The format is decision D9,
log entry 9; the state after the fault is decision D8, log entry 12. -/
def Obligations.PrnPrintsItsRegister : Prop :=
  (∀ (r : Nat) (hr : r < 8) (s : State), ∃ t, exec (.prn r) s = .next t ∧
    t.out = s.out ++ decimal s.regs[r] ++ [0x0A#8] ∧
    t.regs = s.regs ∧ (∀ a, t.mem.read a = s.mem.read a) ∧
    t.pc = s.pc + 2 ∧ t.run = s.run ∧ t.warn = s.warn) ∧
  (∀ (r : Nat) (s : State), 8 ≤ r → ∃ t, exec (.prn r) s = .next t ∧
    t.run = .aborted ⟨.reg, r, s.pc⟩ ∧ t.out = s.out ∧ t.pc = s.pc)

/-- The decimal spelling (rule R101, decision D9, log entry 9): it reads back as the value, is made
of one to three ASCII digits, and begins with a zero only where it is the one digit of 0
(00_scope.md rule R9); so different values print differently. -/
def Obligations.DecimalSpellingIsCanonical : Prop :=
  (∀ v : Byte, decimalValue (decimal v) = v.toNat ∧
    (∀ d ∈ decimal v, isDigit d) ∧
    1 ≤ (decimal v).length ∧ (decimal v).length ≤ 3 ∧
    ((decimal v).head? = some 0x30#8 → decimal v = [0x30#8])) ∧
  (∀ v w : Byte, printedLine v = printedLine w → v = w)

/-- MULTIPLY (42_mul.md rule R110): the product modulo 256, and the frame; on bad indices the first
operand is the one reported (decision D8, log entry 13). -/
def Obligations.MulWritesTheProduct : Prop :=
  (∀ (a b : Nat) (ha : a < 8) (hb : b < 8) (s : State), ∃ t, exec (.mul a b) s = .next t ∧
    (t.regs[a]).toNat = s.regs[a].toNat * s.regs[b].toNat % 256 ∧
    (∀ (j : Nat) (hj : j < 8), j ≠ a → t.regs[j] = s.regs[j]) ∧
    (∀ x, t.mem.read x = s.mem.read x) ∧
    t.pc = s.pc + 3 ∧ t.run = s.run ∧ t.out = s.out ∧ t.warn = s.warn) ∧
  (∀ (a b : Nat) (s : State), 8 ≤ a ∨ 8 ≤ b → ∃ t, exec (.mul a b) s = .next t ∧
    t.run = .aborted ⟨.reg, if 8 ≤ a then a else b, s.pc⟩ ∧ t.regs = s.regs ∧ t.pc = s.pc)

/-- The arithmetic law of MULTIPLY (rule R111): the result does not depend on whether the bytes are
read as signed, and `MUL Ra, Rb` puts in Ra what `MUL Rb, Ra` puts in Rb. -/
def Obligations.MulIsSignAgnosticAndCommutes : Prop :=
  ∀ (a b : Nat) (ha : a < 8) (hb : b < 8) (s t u : State),
    exec (.mul a b) s = .next t → exec (.mul b a) s = .next u →
    t.regs[a] = BitVec.ofInt 8 (s.regs[a].toInt * s.regs[b].toInt) ∧ t.regs[a] = u.regs[b]

/-- PUSH (43_push_pop.md rules R120 and R122): the stack pointer steps down, then the register is
stored at the new top; register 7 pushes the decremented value (decisions D6 and D16, log entries 7
and 8). -/
def Obligations.PushStoresBelowTheTop : Prop :=
  ∀ (r : Nat) (hr : r < 8) (s : State), s.sp ≠ 0x00#8 → ∃ t, exec (.push r) s = .next t ∧
    (t.sp.toNat : Int) = pushAddress s ∧ (t.sp.toNat : Int) = s.sp.toNat - 1 ∧
    t.mem.read (pushAddress s).toNat = (if r = 7 then t.sp else s.regs[r]) ∧
    (∀ a : Nat, (a : Int) ≠ pushAddress s → t.mem.read a = s.mem.read a) ∧
    (∀ (j : Nat) (hj : j < 8), j ≠ 7 → t.regs[j] = s.regs[j]) ∧
    t.pc = s.pc + 2 ∧ t.run = s.run ∧ t.out = s.out ∧ t.warn = s.warn

/-- POP (rules R121 and R122): the byte at the stack pointer goes to the register, then the stack
pointer steps up from what it is after that write (decisions D6 and D16, log entries 7 and 8).
`POP R7` at a stack pointer of 255 does so too, log entry 23. -/
def Obligations.PopLoadsTheTop : Prop :=
  ∀ (r : Nat) (hr : r < 8) (s : State) (v : Byte), memRead (popAddress s) s = .ok v →
    (if r = 7 then v else s.sp) ≠ 0xFF#8 → ∃ t, exec (.pop r) s = .next t ∧
    v = s.mem.read s.sp.toNat ∧
    (r ≠ 7 → t.regs[r] = v ∧ t.sp.toNat = s.sp.toNat + 1) ∧
    (r = 7 → t.sp.toNat = v.toNat + 1) ∧
    (∀ (j : Nat) (hj : j < 8), j ≠ r → j ≠ 7 → t.regs[j] = s.regs[j]) ∧
    (∀ a, t.mem.read a = s.mem.read a) ∧
    t.pc = s.pc + 2 ∧ t.run = s.run ∧ t.out = s.out ∧ t.warn = s.warn

/-- CALL (44_call_ret.md rules R130 and R132): the return address pc + 2 is pushed, then pc becomes
the register's value, which for register 7 is the decremented one (decisions D6 and D16, log
entries 7 and 8).
pc is at most 253 whenever a cycle reaches a handler (rule R87). -/
def Obligations.CallPushesTheReturnAddress : Prop :=
  ∀ (r : Nat) (hr : r < 8) (s : State), s.sp ≠ 0x00#8 → s.pc ≤ 253 →
    ∃ t, exec (.call r) s = .next t ∧
    (t.sp.toNat : Int) = pushAddress s ∧ (t.sp.toNat : Int) = s.sp.toNat - 1 ∧
    (t.mem.read (pushAddress s).toNat).toNat = s.pc + 2 ∧
    (∀ a : Nat, (a : Int) ≠ pushAddress s → t.mem.read a = s.mem.read a) ∧
    (∀ (j : Nat) (hj : j < 8), j ≠ 7 → t.regs[j] = s.regs[j]) ∧
    t.pc = (if r = 7 then t.sp else s.regs[r]).toNat ∧
    t.run = s.run ∧ t.out = s.out ∧ t.warn = s.warn

/-- RETURN (rule R131): pc becomes the byte on top of the stack, and the stack pointer steps up
(decision D6, log entry 7). -/
def Obligations.RetJumpsToTheTop : Prop :=
  ∀ s : State, s.sp ≠ 0xFF#8 → ∃ t, exec .ret s = .next t ∧
    memRead (popAddress s) s = .ok (BitVec.ofNat 8 t.pc) ∧ t.pc ≤ 255 ∧
    t.sp.toNat = s.sp.toNat + 1 ∧
    (∀ (j : Nat) (hj : j < 8), j ≠ 7 → t.regs[j] = s.regs[j]) ∧
    (∀ a, t.mem.read a = s.mem.read a) ∧
    t.run = s.run ∧ t.out = s.out ∧ t.warn = s.warn

/-- HALT (45_hlt_unknown.md rule R140): `RUN` becomes `Halted`, pc still advances by 1, nothing else
changes, no cycle follows, and the exit status is 0. That `step` answers a fault there is the
model's form of "no further cycle runs", log entry 12. -/
def Obligations.HltHaltsWithStatusZero : Prop :=
  ∀ s : State, ∃ t, exec .hlt s = .next t ∧ t.run = .halted ∧ t.pc = s.pc + 1 ∧
    t.regs = s.regs ∧ (∀ a, t.mem.read a = s.mem.read a) ∧ t.out = s.out ∧ t.warn = s.warn ∧
    step t = .fault .halted ∧ ∀ e : ExitCodes, exitStatus e t.run = some 0

/-! ## Two instructions in a row -/

/-- The round trip of rule R123: PUSH then POP moves the register and leaves the stack pointer, for
registers 0 to 6; and by rule R122 `PUSH R7` then `POP R0` leaves the decremented stack pointer in
R0. Decisions D6 and D16, log entries 7 and 8. -/
def Obligations.PushThenPopIsStackNeutral : Prop :=
  (∀ (r r' : Nat) (hr : r < 8) (hr' : r' < 8) (s t : State), r ≠ 7 → r' ≠ 7 → s.sp ≠ 0x00#8 →
    exec (.push r) s = .next t → ∃ u, exec (.pop r') t = .next u ∧
      u.regs[r'] = s.regs[r] ∧ u.sp = s.sp ∧
      (∀ (j : Nat) (hj : j < 8), j ≠ r' → u.regs[j] = s.regs[j]) ∧ u.pc = s.pc + 4) ∧
  (∀ s t : State, s.sp ≠ 0x00#8 → exec (.push 7) s = .next t →
    ∃ u, exec (.pop 0) t = .next u ∧ u.regs[0] = s.sp - 1#8 ∧ u.sp = s.sp)

/-- Call and return as a pair (rule R133): if the subroutine leaves the stack pointer and the
stacked byte as it found them, RETURN resumes after the CALL with the stack pointer of before
(decision D6, log entry 7). -/
def Obligations.RetResumesAfterTheCall : Prop :=
  ∀ (r : Nat) (hr : r < 8) (s t u : State), s.sp ≠ 0x00#8 → s.pc ≤ 253 →
    exec (.call r) s = .next t → u.sp = t.sp →
    u.mem.read t.sp.toNat = t.mem.read t.sp.toNat →
    ∃ w, exec .ret u = .next w ∧ w.pc = s.pc + 2 ∧ w.sp = s.sp ∧
      (∀ (j : Nat) (hj : j < 8), j ≠ 7 → w.regs[j] = u.regs[j]) ∧
      (∀ a, w.mem.read a = u.mem.read a)

/-- A store is seen by the next fetch (20_memory.md rule R53): a PUSH that stores where the next
opcode is makes the next cycle execute the byte it stored; with the byte 0x01 that cycle halts.
`step` runs it with the opcode bytes of `Config.opcodes` (log entry 1); that the byte 0x00 only
warns is decisions D7 and D10, log entries 6 and 15. -/
def Obligations.StoredByteIsTheNextOpcode : Prop :=
  ∀ (r : Nat) (hr : r < 8) (s t : State), r ≠ 7 → s.run = .running → s.pc ≤ 251 → s.sp ≠ 0x00#8 →
    pushAddress s = s.pc + 2 → exec (.push r) s = .next t →
    t.opcodeByte = s.regs[r] ∧
    (s.regs[r] = 0x01#8 → ∃ u, step t = .next u ∧ u.run = .halted ∧ u.pc = s.pc + 3) ∧
    (s.regs[r] = 0x00#8 → ∃ u, step t = .next u ∧ u.run = .running ∧
      u.warn = s.warn ++ [⟨s.pc + 2, 0x00#8⟩])

/-! ## The cycle -/

/-- A cycle whose fetch window decodes is the execution of the decoded instruction
(40_fetch_decode_dispatch.md rules R87, R88 and R93). -/
def Obligations.StepRunsTheDecodedInstruction : Prop :=
  ∀ (ops : Opcodes) (s : State) (i : Instr), s.run = .running → s.pc ≤ 253 →
    decode ops [s.opcodeByte, s.operandA, s.operandB] = .ok i →
    stepWith ops s = exec i s ∧ (ops = Config.opcodes → step s = exec i s)

/-- Rule R43: the bytes of an instruction lie at ascending addresses from pc, the opcode first, then
the operands in order, so a machine with an instruction's encoding at pc executes it; and the
source's own example. -/
def Obligations.InstructionBytesAscendFromPc : Prop :=
  (∀ (ops : Opcodes) (s : State) (i : Instr), ops.admissible → i.wellFormed → s.run = .running →
    s.pc ≤ 253 →
    (∀ (k : Nat) (hk : k < (encode ops i).length), s.mem.read (s.pc + k) = (encode ops i)[k]) →
    stepWith ops s = exec i s) ∧
  (∀ ops : Opcodes, encode ops (.ldi 0 0x08#8) = [0b10000010#8, 0x00#8, 0x08#8])

/-- A cycle whose opcode byte has no handler logs it and advances by 1 + bits 7:6, bit 4 ignored;
nothing else changes (45_hlt_unknown.md rules R141 and R142; decisions D7 and D10, log entries 6
and 15). The byte 0x00 is such a byte under every admissible choice of the open opcode bytes. -/
def Obligations.UnknownOpcodeIsALoggedNoOp : Prop :=
  (∀ (ops : Opcodes) (s : State), s.run = .running → s.pc ≤ 253 →
    s.opcodeByte ∉ knownOpcodes ops → ∃ t, stepWith ops s = .next t ∧
      t.warn = s.warn ++ [⟨s.pc, s.opcodeByte⟩] ∧ t.pc = s.pc + 1 + s.opcodeByte.toNat / 64 ∧
      t.regs = s.regs ∧ (∀ a, t.mem.read a = s.mem.read a) ∧
      t.run = .running ∧ t.out = s.out) ∧
  (∀ ops : Opcodes, ops.admissible → 0x00#8 ∉ knownOpcodes ops)

/-- The fetch window (rule R87; decisions D5 and D8, log entries 5 and 12): a cycle that begins at
254 or above aborts before any handler runs, whatever memory holds, with the record of its first
failing read. -/
def Obligations.FetchBeyondMemoryAborts : Prop :=
  ∀ (ops : Opcodes) (s : State), s.run = .running → 254 ≤ s.pc →
    ∃ t, stepWith ops s = .next t ∧
      t.run = .aborted ⟨.mem, if s.pc ≤ 255 then 256 else s.pc, s.pc⟩ ∧
      t.regs = s.regs ∧ (∀ a, t.mem.read a = s.mem.read a) ∧
      t.pc = s.pc ∧ t.out = s.out ∧ t.warn = s.warn

/-- While `RUN` is `Running` every cycle completes; once it is not, there is none (rules R90, R91
and R192). The faults are the model's form of "no cycle runs", log entry 12. -/
def Obligations.CyclesRunExactlyWhileRunning : Prop :=
  ∀ (ops : Opcodes) (s : State),
    (s.run = .running → ∃ t, stepWith ops s = .next t) ∧
    (s.run = .halted → stepWith ops s = .fault .halted) ∧
    (∀ info, s.run = .aborted info → stepWith ops s = .fault (.aborted info))

/-- The word placed by `withFetchWord` is the one the next step runs, and placing it changes
nothing else in a machine that could fetch (log entry 14). -/
def Obligations.PlacedWordIsTheNextInstruction : Prop :=
  ∀ (s : State) (nbits w : Nat),
    (∀ i, decodeTableWord nbits w = some i →
      step (s.withFetchWord nbits w) = exec i (s.withFetchWord nbits w)) ∧
    (s.withFetchWord nbits w).regs = s.regs ∧ (s.withFetchWord nbits w).out = s.out ∧
    (s.withFetchWord nbits w).warn = s.warn ∧
    (s.run = .running → s.pc ≤ 253 → (s.withFetchWord nbits w).run = .running ∧
      (s.withFetchWord nbits w).pc = s.pc ∧
      ∀ a, a < s.pc ∨ s.pc + 2 < a → (s.withFetchWord nbits w).mem.read a = s.mem.read a)

/-- How a cycle that raises nothing changes pc (rules R26, R89 and R132; decisions D4, D7 and D16,
log entries 4, 6 and 8): by 1 + the Decoder's operand count where there is no handler or "sets PC"
is clear, else to the target of CALL, which is its register after the push, or of RETURN. -/
def Obligations.NextPcFollowsTheDecoder : Prop :=
  ∀ (ops : Opcodes) (s t : State), ops.admissible → stepWith ops s = .next t →
    (∀ info, t.run ≠ .aborted info) →
    (s.opcodeByte ∉ knownOpcodes ops ∨ setsPc s.opcodeByte = false →
      t.pc = s.pc + 1 + operandCount s.opcodeByte) ∧
    (s.opcodeByte = ops.call → ∃ h : s.operandA.toNat < 8, t.pc = (t.regs[s.operandA.toNat]).toNat) ∧
    (s.opcodeByte = 0x11#8 → t.pc = (s.mem.read s.sp.toNat).toNat)

/-! ## Faults -/

/-- The handler rows of the table of causes (60_exceptions.md rules R153 and R156; decisions D6, D8
and D16, log entries 7, 8, 12, 13 and 23): an instruction aborts with the record the table gives,
all else as it was, and completes where the table has no row. -/
def Obligations.InstructionsAbortAsTabled : Prop :=
  ∀ (i : Instr) (s : State),
    (∀ info, handlerCause i s = some info → exec i s = .next { s with run := .aborted info }) ∧
    (handlerCause i s = none →
      ∃ t, exec i s = .next t ∧ t.run = (if i = .hlt then .halted else s.run))

/-- A cycle aborts exactly when the whole table has a row for it, with that row's record, and the
abort is precise: the state of the start of the cycle with `RUN` replaced (rules R153 to R156;
decisions D5, D6, D8 and D16, log entries 5, 7, 8, 12, 13 and 23). -/
def Obligations.CyclesAbortExactlyAsTabled : Prop :=
  ∀ (ops : Opcodes) (s t : State) (info : OutOfBounds), stepWith ops s = .next t →
    (t.run = .aborted info ↔ cycleCause ops s = some info) ∧
    (t.run = .aborted info → t = { s with run := .aborted info } ∧ info.pc = s.pc)

/-- `Halted` is reached only by HALT (10_state.md rule R27): by a cycle that fetched the byte 0x01,
from a pc of at most 253 (decision D5, log entry 5), and that changed nothing but `RUN` and pc. -/
def Obligations.OnlyHltHalts : Prop :=
  ∀ (ops : Opcodes) (s t : State), stepWith ops s = .next t → t.run = .halted →
    s.opcodeByte = 0x01#8 ∧ s.pc ≤ 253 ∧ t = { s with run := .halted, pc := s.pc + 1 }

/-! ## What a cycle can change -/

/-- Which registers a cycle can write (10_state.md rule R24): LOAD-IMMEDIATE, MULTIPLY and POP their
first operand, PUSH, POP, CALL and RETURN the stack pointer, nothing else any; and a cycle that
aborts writes none (decision D8, log entry 12). -/
def Obligations.RegistersChangeOnlyAsListed : Prop :=
  ∀ (ops : Opcodes) (s t : State) (j : Nat) (hj : j < 8), stepWith ops s = .next t →
    t.regs[j] ≠ s.regs[j] → (∀ info, t.run ≠ .aborted info) ∧
    ((s.operandA.toNat = j ∧ s.opcodeByte ∈ [0x82#8, ops.mul, ops.pop]) ∨
    (j = 7 ∧ s.opcodeByte ∈ [ops.push, ops.pop, ops.call, 0x11#8]))

/-- Which bytes a cycle can write (20_memory.md rule R55): only PUSH and CALL write, and only the
byte one below the stack pointer; an aborted cycle writes none (decisions D6 and D8, log entries 7
and 12). -/
def Obligations.OnlyPushAndCallStore : Prop :=
  ∀ (ops : Opcodes) (s t : State) (a : Nat), stepWith ops s = .next t →
    t.mem.read a ≠ s.mem.read a →
    (a : Int) = pushAddress s ∧ (s.opcodeByte = ops.push ∨ s.opcodeByte = ops.call)

/-- No cycle ever changes the byte at address 255 (70_reset_and_hazards.md rule R190; decisions D6
and D8, log entries 7 and 12). -/
def Obligations.TopByteIsNeverWritten : Prop :=
  ∀ (ops : Opcodes) (s t : State), stepWith ops s = .next t →
    t.mem.read 255 = s.mem.read 255

/-- `OUT` (10_state.md rule R28; the line's format is decision D9, log entry 9, and that warnings
are kept out of it decision D10, log entry 15): empty at reset; only
PRINT-REGISTER appends, one printed line of its register; nothing is removed; no cycle depends on
it; and the host of an ended run reads all of it. -/
def Obligations.OnlyPrnAppendsToOut : Prop :=
  (∀ v : ResetValues, (State.resetWith v).out = []) ∧
  (∀ (ops : Opcodes) (s t : State), stepWith ops s = .next t →
    ∃ line, t.out = s.out ++ line ∧
      (line ≠ [] → s.opcodeByte = 0x47#8 ∧
        ∃ h : s.operandA.toNat < 8, line = decimal s.regs[s.operandA.toNat] ++ [0x0A#8]) ∧
      ∀ o, stepWith ops { s with out := o } = .next { t with out := o ++ line }) ∧
  (∀ (e : ExitCodes) (s : State), s.run ≠ .running → ∃ r, observe e s = some r ∧ r.out = s.out)

/-- `WARN` (10_state.md rule R29; decisions D8, D10 and D15, log entries 12, 15 and 19): only an
opcode byte without a handler appends to it, one entry naming pc and the byte; nothing is removed;
no cycle depends on it. -/
def Obligations.OnlyUnknownOpcodesWarn : Prop :=
  ∀ (ops : Opcodes) (s t : State), stepWith ops s = .next t →
    ∃ entries, t.warn = s.warn ++ entries ∧
      (entries ≠ [] → s.opcodeByte ∉ knownOpcodes ops ∧ entries = [⟨s.pc, s.opcodeByte⟩]) ∧
      ∀ w, stepWith ops { s with warn := w } = .next { t with warn := w ++ entries }

/-! ## Invariants and whole runs -/

/-- Every cycle keeps the invariant: memory canonical and inside its 256 bytes, pc at most 257
(rule R25, decision D4, log entry 4), `OUT` printed lines, `WARN` unknown opcodes at addresses a
cycle can fetch from, a fatal record one of those the machine can leave (rule R154). The printed
lines are decision D9, the addresses of warnings D5 and D10, the records D6 and D8: log entries 5,
7, 9, 12 and 15. -/
def Obligations.EveryCycleKeepsTheInvariant : Prop :=
  ∀ (ops : Opcodes) (s t : State), s.Inv ops → stepWith ops s = .next t → t.Inv ops

/-- The invariant holds at reset, with any register values, and after the load of any image. -/
def Obligations.InvariantHoldsAtReset : Prop :=
  State.reset.Inv Config.opcodes ∧
  ∀ (ops : Opcodes) (v : ResetValues) (image : List Byte),
    (State.resetWith v).Inv ops ∧ (load image (State.resetWith v)).Inv ops

/-- Rule R180: the state at the start of a run. Memory is zero, registers 0 to 6 and the stack
pointer have the given values, pc is 0, `RUN` is `Running`, `OUT` and `WARN` are empty; then an
image of at most 256 bytes is at addresses 0 up, and its first byte is the first opcode. -/
def Obligations.RunStartsAsLoaded : Prop :=
  ∀ v : ResetValues,
    (∀ a, (State.resetWith v).mem.read a = 0x00#8) ∧
    (∀ (j : Nat) (hj : j < 7), (State.resetWith v).regs[j]'(Nat.lt_succ_of_lt hj) = v.general[j]) ∧
    (State.resetWith v).sp = v.sp ∧ (State.resetWith v).pc = 0 ∧
    (State.resetWith v).run = .running ∧ (State.resetWith v).out = [] ∧
    (State.resetWith v).warn = [] ∧
    ∀ image : List Byte, image.length ≤ 256 → ∃ t, start v (.image image) = .core t ∧
      (∀ (j : Nat) (hj : j < image.length), t.mem.read j = image[j]) ∧
      (∀ j, image.length ≤ j → t.mem.read j = 0x00#8) ∧
      t.regs = (State.resetWith v).regs ∧ t.pc = 0 ∧ t.run = .running ∧ t.out = [] ∧ t.warn = [] ∧
      (∀ h : 0 < image.length, t.opcodeByte = image[0])

/-- An image longer than 256 bytes aborts the run before any cycle (70_reset_and_hazards.md
rule R182, decision D12); that nothing of it is placed is the model's choice, log entry 10. A
program that cannot be read starts no core (60_exceptions.md rule R157). Both exit statuses are
the open parameters of rule R7. -/
def Obligations.BadProgramsRunNoCycle : Prop :=
  (∀ (v : ResetValues) (image : List Byte), 256 < image.length →
    start v (.image image) =
      .core { State.resetWith v with run := .aborted ⟨.mem, 256, 0⟩ } ∧
    step (load image (State.resetWith v)) = .fault (.aborted ⟨.mem, 256, 0⟩) ∧
    ∀ e : ExitCodes, (start v (.image image)).exitStatus e = some e.fatal) ∧
  (∀ (v : ResetValues) (path : String) (e : ExitCodes),
    start v (.unreadable path) = .programLoadFailure path ∧
    (start v (.unreadable path)).exitStatus e = some e.load)

/-- The exit status (60_exceptions.md rule R158, decision D11, log entry 17): none while running, 0
after HALT, `EXIT_FATAL` after a fatal error, and under rule R7's constraints only HALT gives 0. -/
def Obligations.ExitStatusTellsHowTheRunEnded : Prop :=
  ∀ (e : ExitCodes) (r : RunState), e.admissible →
    (exitStatus e r = none ↔ r = .running) ∧ (exitStatus e r = some 0 ↔ r = .halted) ∧
    (exitStatus e r = some e.fatal ↔ ∃ info, r = .aborted info)

/-- Running off the end (70_reset_and_hazards.md rule R187; decisions D5, D7, D8 and D10, log
entries 5, 6, 12 and 15): from pc = e at most 253 with every byte from e to 255 zero, 254 - e cycles
log one warning each, at e, e + 1, ..., 253, and the next cycle aborts at its fetch. -/
def Obligations.RunningOffTheEndWarnsThenAborts : Prop :=
  ∀ (ops : Opcodes) (s : State), ops.admissible → s.run = .running → s.pc ≤ 253 →
    (∀ a, s.pc ≤ a → a ≤ 255 → s.mem.read a = 0x00#8) →
    ∃ t, runCycles ops (254 - s.pc) s = .next t ∧
      t = { s with pc := 254
                   warn := s.warn ++ (List.range' s.pc (254 - s.pc)).map (⟨·, 0x00#8⟩) } ∧
      runCycles ops (255 - s.pc) s = .next { t with run := .aborted ⟨.mem, 256, 254⟩ }

/-- The program text of 30_encoding.md rule R72 (notation only: decision D13, log entry 18): the
eight binary digits of a byte, with or without a comment, read back as the byte. -/
def Obligations.ProgramTextReadsBack : Prop :=
  ∀ (v : Byte) (comment : List Char),
    byteOfLine (lineOfByte v) = .ok (some v) ∧
    byteOfLine (lineOfByte v ++ ' ' :: '#' :: comment) = .ok (some v) ∧
    byteOfLine ('#' :: comment) = .ok none ∧
    (assembly .ret = "RET" ∧ assembly (.ldi 0 0x08#8) = "LDI R0, 8")

/-! ## The range of the stack pointer -/

/-- The range of the stack pointer (70_reset_and_hazards.md rule R190; decisions D6 and D8, log
entries 7 and 12): PUSH and CALL at 0 and POP and RETURN at 255 are fatal, a push stores at 0 to
254, and a POP that completes reads at 254 at most. `POP R7` at 255 is fatal where the byte there is
255 and completes where it is not (43_push_pop.md rule R122, decision D16, log entries 8 and 23). -/
def Obligations.StackPointerRangeIsEnforced : Prop :=
  ∀ (r : Nat) (s : State), r < 8 →
    (s.sp = 0x00#8 → exec (.push r) s = .next { s with run := .aborted ⟨.mem, -1, s.pc⟩ } ∧
      exec (.call r) s = .next { s with run := .aborted ⟨.mem, -1, s.pc⟩ }) ∧
    (s.sp = 0xFF#8 → exec .ret s = .next { s with run := .aborted ⟨.mem, 256, s.pc⟩ } ∧
      (r ≠ 7 ∨ s.mem.read 255 = 0xFF#8 →
        exec (.pop r) s = .next { s with run := .aborted ⟨.mem, 256, s.pc⟩ }) ∧
      (r = 7 → s.mem.read 255 ≠ 0xFF#8 →
        ∃ t, exec (.pop r) s = .next t ∧ t.run = s.run ∧ t.pc = s.pc + 2)) ∧
    (s.sp ≠ 0x00#8 → 0 ≤ pushAddress s ∧ pushAddress s ≤ 254) ∧
    (∀ t, exec (.pop r) s = .next t → t.pc ≠ s.pc →
      popAddress s ≤ 254 ∨ (r = 7 ∧ s.mem.read 255 ≠ 0xFF#8))
end

