-- ==== Sys2Proof/Laws/Decode.lean ====
section
/-! SUPPORT. The Decoder and the multiplexer: what `select` can answer, and what the constraints on
the open opcode bytes give. -/

namespace Sys2Proof

/-! ## The Decoder -/

theorem operandCount_eq (o : Byte) : operandCount o = o.toNat / 64 := by
  simp [operandCount, Nat.shiftRight_eq_div_pow]

theorem operandCount_le (o : Byte) : operandCount o ≤ 3 := by
  have := o.isLt
  rw [operandCount_eq]; omega

/-! ## The multiplexer -/

/-- A selected handler is the one of the opcode byte, for any choice of opcode bytes. -/
theorem opcode_of_select {ops : Opcodes} {o : Byte} {h : Handler} (hs : select ops o = some h) :
    h.opcode ops = o := by
  simpa using List.find?_some hs

theorem Handler.mem_all (h : Handler) : h ∈ Handler.all := by cases h <;> decide

/-- No handler is selected exactly when the byte is none of the eight. -/
theorem select_eq_none {ops : Opcodes} {o : Byte} :
    select ops o = none ↔ o ∉ knownOpcodes ops := by
  simp only [select, List.find?_eq_none, knownOpcodes, List.mem_map, not_exists, not_and, beq_iff_eq]

/-- The two decoded fields of a handler's opcode byte, and that it is none of the others with the
same fields (rule R84). -/
theorem opcode_fields {ops : Opcodes} (ha : ops.admissible) (h : Handler) :
    ((h.opcode ops).extractLsb' 6 2, (h.opcode ops).getLsbD 4) =
      match h with
      | .ldi | .mul         => (0b10#2, false)
      | .prn | .push | .pop => (0b01#2, false)
      | .call               => (0b01#2, true)
      | .ret                => (0b00#2, true)
      | .hlt                => (0b00#2, false) := by
  simp only [Opcodes.admissible, hasShape, Bool.and_eq_true, beq_iff_eq] at ha
  cases h <;> simp only [Handler.opcode] <;> first | decide | simp_all

/-- Under the constraints of rule R7 the eight opcode bytes differ. -/
theorem opcode_injective {ops : Opcodes} (ha : ops.admissible) {h k : Handler}
    (hk : h.opcode ops = k.opcode ops) : h = k := by
  have hf := opcode_fields ha h
  rw [hk, opcode_fields ha k] at hf
  simp only [Opcodes.admissible, Bool.and_eq_true, bne_iff_ne] at ha
  cases h <;> cases k <;> simp [Handler.opcode] at hf hk ⊢ <;> simp_all

/-- Under the constraints of rule R7 each handler is selected by its own byte. -/
theorem select_opcode {ops : Opcodes} (ha : ops.admissible) (h : Handler) :
    select ops (h.opcode ops) = some h := by
  rcases hs : select ops (h.opcode ops) with _ | k
  · exact absurd (List.mem_map.mpr ⟨h, h.mem_all, rfl⟩) (select_eq_none.mp hs)
  · rw [opcode_injective ha (opcode_of_select hs)]

theorem select_eq_some {ops : Opcodes} (ha : ops.admissible) {o : Byte} {h : Handler} :
    select ops o = some h ↔ h.opcode ops = o :=
  ⟨opcode_of_select, fun e => e ▸ select_opcode ha h⟩

/-! ## The window -/

theorem decodeWindow_eq_none {ops : Opcodes} {o a b : Byte} :
    decodeWindow ops o a b = none ↔ o ∉ knownOpcodes ops := by
  rw [← select_eq_none, decodeWindow, Option.map_eq_none_iff]

theorem decodeWindow_eq_some {ops : Opcodes} {o a b : Byte} {i : Instr} :
    decodeWindow ops o a b = some i ↔ ∃ h, select ops o = some h ∧ h.instr a b = i :=
  Option.map_eq_some_iff

/-- What is decoded has an encoding. -/
theorem wellFormed_instr (a b : Byte) (h : Handler) : (h.instr a b).wellFormed := by
  have := a.isLt
  have := b.isLt
  cases h <;> simp_all [Handler.instr, Instr.wellFormed, fitsOperandByte]

/-- What is decoded is encoded by the bytes it was decoded from. -/
theorem encode_instr (ops : Opcodes) (a b : Byte) (h : Handler) :
    encode ops (h.instr a b) <+: [h.opcode ops, a, b] := by
  cases h <;> simp [Handler.instr, encode]

end Sys2Proof
end

