-- ==== Sys2Proof/Laws/State.lean ====
section
/-! SUPPORT. One lemma per field per update of the state, and per update the stack pointer. -/

namespace Sys2Proof.Machine

@[simp] theorem State.withMem_mem (m : Memory) (s : State) : (s.withMem m).mem = m := rfl
@[simp] theorem State.withMem_regs (m : Memory) (s : State) : (s.withMem m).regs = s.regs := rfl
@[simp] theorem State.withMem_pc (m : Memory) (s : State) : (s.withMem m).pc = s.pc := rfl
@[simp] theorem State.withMem_run (m : Memory) (s : State) : (s.withMem m).run = s.run := rfl
@[simp] theorem State.withMem_out (m : Memory) (s : State) : (s.withMem m).out = s.out := rfl
@[simp] theorem State.withMem_warn (m : Memory) (s : State) : (s.withMem m).warn = s.warn := rfl
@[simp] theorem State.withMem_sp (m : Memory) (s : State) : (s.withMem m).sp = s.sp := rfl

@[simp] theorem State.withRegs_mem (r : Vector Byte Config.numRegs) (s : State) : (s.withRegs r).mem = s.mem := rfl
@[simp] theorem State.withRegs_regs (r : Vector Byte Config.numRegs) (s : State) : (s.withRegs r).regs = r := rfl
@[simp] theorem State.withRegs_pc (r : Vector Byte Config.numRegs) (s : State) : (s.withRegs r).pc = s.pc := rfl
@[simp] theorem State.withRegs_run (r : Vector Byte Config.numRegs) (s : State) : (s.withRegs r).run = s.run := rfl
@[simp] theorem State.withRegs_out (r : Vector Byte Config.numRegs) (s : State) : (s.withRegs r).out = s.out := rfl
@[simp] theorem State.withRegs_warn (r : Vector Byte Config.numRegs) (s : State) : (s.withRegs r).warn = s.warn := rfl

@[simp] theorem State.withPc_mem (p : Nat) (s : State) : (s.withPc p).mem = s.mem := rfl
@[simp] theorem State.withPc_regs (p : Nat) (s : State) : (s.withPc p).regs = s.regs := rfl
@[simp] theorem State.withPc_pc (p : Nat) (s : State) : (s.withPc p).pc = p := rfl
@[simp] theorem State.withPc_run (p : Nat) (s : State) : (s.withPc p).run = s.run := rfl
@[simp] theorem State.withPc_out (p : Nat) (s : State) : (s.withPc p).out = s.out := rfl
@[simp] theorem State.withPc_warn (p : Nat) (s : State) : (s.withPc p).warn = s.warn := rfl
@[simp] theorem State.withPc_sp (p : Nat) (s : State) : (s.withPc p).sp = s.sp := rfl

@[simp] theorem State.withRun_mem (r : RunState) (s : State) : (s.withRun r).mem = s.mem := rfl
@[simp] theorem State.withRun_regs (r : RunState) (s : State) : (s.withRun r).regs = s.regs := rfl
@[simp] theorem State.withRun_pc (r : RunState) (s : State) : (s.withRun r).pc = s.pc := rfl
@[simp] theorem State.withRun_run (r : RunState) (s : State) : (s.withRun r).run = r := rfl
@[simp] theorem State.withRun_out (r : RunState) (s : State) : (s.withRun r).out = s.out := rfl
@[simp] theorem State.withRun_warn (r : RunState) (s : State) : (s.withRun r).warn = s.warn := rfl
@[simp] theorem State.withRun_sp (r : RunState) (s : State) : (s.withRun r).sp = s.sp := rfl

@[simp] theorem State.emit_mem (b : List Byte) (s : State) : (s.emit b).mem = s.mem := rfl
@[simp] theorem State.emit_regs (b : List Byte) (s : State) : (s.emit b).regs = s.regs := rfl
@[simp] theorem State.emit_pc (b : List Byte) (s : State) : (s.emit b).pc = s.pc := rfl
@[simp] theorem State.emit_run (b : List Byte) (s : State) : (s.emit b).run = s.run := rfl
@[simp] theorem State.emit_out (b : List Byte) (s : State) : (s.emit b).out = s.out ++ b := rfl
@[simp] theorem State.emit_warn (b : List Byte) (s : State) : (s.emit b).warn = s.warn := rfl
@[simp] theorem State.emit_sp (b : List Byte) (s : State) : (s.emit b).sp = s.sp := rfl

@[simp] theorem State.logWarning_mem (w : Warning) (s : State) : (s.logWarning w).mem = s.mem := rfl
@[simp] theorem State.logWarning_regs (w : Warning) (s : State) : (s.logWarning w).regs = s.regs := rfl
@[simp] theorem State.logWarning_pc (w : Warning) (s : State) : (s.logWarning w).pc = s.pc := rfl
@[simp] theorem State.logWarning_run (w : Warning) (s : State) : (s.logWarning w).run = s.run := rfl
@[simp] theorem State.logWarning_out (w : Warning) (s : State) : (s.logWarning w).out = s.out := rfl
@[simp] theorem State.logWarning_warn (w : Warning) (s : State) : (s.logWarning w).warn = s.warn ++ [w] := rfl
@[simp] theorem State.logWarning_sp (w : Warning) (s : State) : (s.logWarning w).sp = s.sp := rfl

@[simp] theorem State.withRegs_sp (r : Vector Byte Config.numRegs) (s : State) :
    (s.withRegs r).sp = r[Config.spIndex] := rfl

@[simp] theorem abort_mem (info : OutOfBounds) (s : State) : (abort info s).mem = s.mem := rfl
@[simp] theorem abort_regs (info : OutOfBounds) (s : State) : (abort info s).regs = s.regs := rfl
@[simp] theorem abort_pc (info : OutOfBounds) (s : State) : (abort info s).pc = s.pc := rfl
@[simp] theorem abort_run (info : OutOfBounds) (s : State) :
    (abort info s).run = .aborted info := rfl
@[simp] theorem abort_out (info : OutOfBounds) (s : State) : (abort info s).out = s.out := rfl
@[simp] theorem abort_warn (info : OutOfBounds) (s : State) : (abort info s).warn = s.warn := rfl

end Sys2Proof.Machine
end

