-- ==== Sys2Proof/Laws/Memory.lean ====
section
/-! SUPPORT. Memory: a read gives the latest write, every other address is left alone, and every
operation keeps the canonical form. -/

namespace Sys2Proof.Machine

/-! ## Reading what was written -/

@[simp] theorem Memory.read_nil (a : Nat) : Memory.read [] a = 0#8 := rfl

theorem Memory.read_cons (c : Host.Cell) (m : Memory) (a : Nat) :
    Memory.read (c :: m) a = if a = c.1 then c.2 else m.read a := by
  obtain ⟨k, v⟩ := c
  by_cases h : a = k
  · simp [Memory.read, h]
  · simp [Memory.read, List.lookup_cons, h, beq_false_of_ne h]

theorem Memory.read_erase (m : Memory) (a b : Nat) :
    (m.erase a).read b = if b = a then 0#8 else m.read b := by
  induction m with
  | nil => simp [Memory.erase]
  | cons c m ih =>
    rw [Memory.read_cons]
    by_cases hc : c.1 = a
    · have : Memory.erase (c :: m) a = Memory.erase m a := by simp [Memory.erase, hc]
      rw [this, ih]
      split <;> simp_all
    · have : Memory.erase (c :: m) a = c :: Memory.erase m a := by simp [Memory.erase, hc]
      rw [this, Memory.read_cons, ih]
      split <;> split <;> simp_all

theorem Memory.read_insert (m : Memory) (a b : Nat) (v : Byte) (h : ∀ c ∈ m, c.1 ≠ a) :
    Memory.read (m.insert a v) b = if b = a then v else m.read b := by
  induction m with
  | nil => simp [Memory.insert, Memory.read_cons]
  | cons c m ih =>
    have hc : c.1 ≠ a := h c (by simp)
    have ih := ih fun d hd => h d (by simp [hd])
    unfold Memory.insert
    split
    · rw [Memory.read_cons]
    · rw [Memory.read_cons, Memory.read_cons, ih]
      split <;> split <;> simp_all

theorem Memory.ne_of_mem_erase {m : Memory} {a : Nat} {c : Host.Cell} (h : c ∈ m.erase a) :
    c.1 ≠ a := by
  simp [Memory.erase] at h; exact h.2

/-- A read after a write: the byte written at the address written, the old one elsewhere. -/
theorem Memory.read_write (m : Memory) (a b : Nat) (v : Byte) :
    (m.write a v).read b = if b = a then v else m.read b := by
  unfold Memory.write
  split
  · simp_all [Memory.read_erase]
  · rw [Memory.read_insert _ _ _ _ fun c hc => Memory.ne_of_mem_erase hc, Memory.read_erase]
    split <;> simp_all

@[simp] theorem Memory.read_write_same (m : Memory) (a : Nat) (v : Byte) :
    (m.write a v).read a = v := by simp [Memory.read_write]

theorem Memory.read_write_ne (m : Memory) {a b : Nat} (v : Byte) (h : b ≠ a) :
    (m.write a v).read b = m.read b := by simp [Memory.read_write, h]

/-! ## The canonical form -/

theorem Memory.wf_nil : Memory.wf [] := by simp [Memory.wf]

theorem Memory.wf_erase {m : Memory} (h : m.wf) (a : Nat) : (m.erase a).wf :=
  ⟨h.1.filter _, fun c hc => h.2 c (List.mem_filter.mp hc).1⟩

theorem Memory.mem_insert {m : Memory} {a : Nat} {v : Byte} {c : Host.Cell} :
    c ∈ m.insert a v ↔ c = (a, v) ∨ c ∈ m := by
  induction m with
  | nil => simp [Memory.insert]
  | cons d m ih =>
    unfold Memory.insert
    split
    · simp
    · simp only [List.mem_cons, ih]; tauto

theorem Memory.pairwise_insert {m : Memory} (a : Nat) (v : Byte)
    (h : m.Pairwise (fun c d => c.1 < d.1)) (hne : ∀ c ∈ m, c.1 ≠ a) :
    (m.insert a v).Pairwise (fun c d => c.1 < d.1) := by
  induction m with
  | nil => simp [Memory.insert]
  | cons d m ih =>
    have hd := List.pairwise_cons.mp h
    unfold Memory.insert
    split
    · rename_i hlt
      refine List.pairwise_cons.mpr ⟨fun c hc => ?_, h⟩
      rcases List.mem_cons.mp hc with rfl | hc
      · exact hlt
      · exact lt_trans hlt (hd.1 c hc)
    · rename_i hge
      refine List.pairwise_cons.mpr ⟨fun c hc => ?_, ih hd.2 fun c hc => hne c (by simp [hc])⟩
      rcases Memory.mem_insert.mp hc with rfl | hc
      · have := hne d (by simp); simp at hge ⊢; omega
      · exact hd.1 c hc

/-- A write inside memory keeps the canonical form. -/
theorem Memory.wf_write {m : Memory} (h : m.wf) {a : Nat} (ha : a < Config.memSize) (v : Byte) :
    (m.write a v).wf := by
  unfold Memory.write
  split
  · exact Memory.wf_erase h a
  · rename_i hv
    have he := Memory.wf_erase h a
    refine ⟨Memory.pairwise_insert a v he.1 fun c hc => Memory.ne_of_mem_erase hc, fun c hc => ?_⟩
    rcases Memory.mem_insert.mp hc with rfl | hc
    · exact ⟨ha, hv⟩
    · exact he.2 c hc

/-! ## The primitives -/

theorem memRead_of_lt {a : Nat} (h : a < 256) (s : State) :
    memRead a s = .ok (s.mem.read a) := by
  have : (a : Int) < 256 := by exact_mod_cast h
  simp [memRead, this]

theorem memRead_of_ge {a : Nat} (h : 256 ≤ a) (s : State) :
    memRead a s = .error ⟨.mem, a, s.pc⟩ := by
  simp [memRead, raise]; omega

theorem memWrite_of_lt {a : Nat} (h : a < 256) (v : Byte) (s : State) :
    memWrite a v s = .ok (s.withMem (s.mem.write a v)) := by
  have : (a : Int) < 256 := by exact_mod_cast h
  simp [memWrite, this]

/-- A read at an address held in a byte never faults. -/
@[simp] theorem memRead_byte (a : Byte) (s : State) :
    memRead (a.toNat : Int) s = .ok (s.mem.read a.toNat) := memRead_of_lt a.isLt s

/-- A write at an address held in a byte never faults. -/
@[simp] theorem memWrite_byte (a v : Byte) (s : State) :
    memWrite (a.toNat : Int) v s = .ok (s.withMem (s.mem.write a.toNat v)) :=
  memWrite_of_lt a.isLt v s

/-- A write that is made keeps the canonical form and changes nothing but memory. -/
theorem memWrite_ok {a : Int} {v : Byte} {s t : State} (h : memWrite a v s = .ok t) :
    inMemory a ∧ t = s.withMem (s.mem.write a.toNat v) := by
  unfold memWrite at h
  split at h
  · exact ⟨‹_›, by simpa using h.symm⟩
  · simp [raise] at h

theorem memWrite_keeps_wf {a : Int} {v : Byte} {s t : State} (hs : s.mem.wf)
    (h : memWrite a v s = .ok t) : t.mem.wf := by
  obtain ⟨⟨h0, h1⟩, rfl⟩ := memWrite_ok h
  exact Memory.wf_write hs (by simp at h1 ⊢; omega) v

/-- The fetch: three reads where all three addresses exist, else the record of the first that
does not. -/
theorem fetch_eq (s : State) :
    fetch s =
      if s.pc ≤ 253 then .ok ⟨s.mem.read s.pc, s.mem.read (s.pc + 1), s.mem.read (s.pc + 2)⟩
      else if s.pc ≤ 255 then .error ⟨.mem, 256, s.pc⟩
      else .error ⟨.mem, s.pc, s.pc⟩ := by
  have read_at (n : Nat) : memRead n s =
      if n < 256 then .ok (s.mem.read n) else .error ⟨.mem, n, s.pc⟩ := by
    split
    · exact memRead_of_lt ‹_› s
    · exact memRead_of_ge (by omega) s
  have h1 := read_at (s.pc + 1)
  have h2 := read_at (s.pc + 2)
  push_cast at h1 h2
  unfold fetch
  rw [read_at s.pc, h1, h2]
  rcases Nat.lt_or_ge s.pc 254 with h | h
  · simp [show s.pc < 256 by omega, show s.pc + 1 < 256 by omega, show s.pc + 2 < 256 by omega,
      show s.pc ≤ 253 by omega, bind, Except.bind]
  · rcases Nat.lt_or_ge s.pc 256 with h' | h'
    · obtain h'' | h'' : s.pc = 254 ∨ s.pc = 255 := by omega
      all_goals simp [h'', bind, Except.bind]
    · simp [show ¬ s.pc < 256 by omega, show ¬ s.pc ≤ 253 by omega, show ¬ s.pc ≤ 255 by omega,
        bind, Except.bind]

end Sys2Proof.Machine
end

