-- ==== Sys2Proof/Laws/Operations.lean ====
section
/-! SUPPORT. Registers, the stack pointer, the decimal spelling and the end of a cycle: one lemma
for everything each shared operation can do. -/

namespace Sys2Proof.Machine

/-! ## Registers -/

theorem readReg_of_lt {i : Nat} (h : i < 8) (s : State) : readReg i s = .ok s.regs[i] := by
  simp [readReg, h]

theorem readReg_of_ge {i : Nat} (h : 8 ≤ i) (s : State) :
    readReg i s = .error ⟨.reg, i, s.pc⟩ := by
  simp [readReg, raise, Nat.not_lt.mpr h]

theorem writeReg_of_lt {i : Nat} (h : i < 8) (v : Byte) (s : State) :
    writeReg i v s = .ok (s.withRegs (s.regs.set i v)) := by
  simp [writeReg, h]

theorem writeReg_of_ge {i : Nat} (h : 8 ≤ i) (v : Byte) (s : State) :
    writeReg i v s = .error ⟨.reg, i, s.pc⟩ := by
  simp [writeReg, raise, Nat.not_lt.mpr h]

/-- Two states with the same registers answer a valid register read alike. -/
theorem readReg_congr {s t : State} (h : t.regs = s.regs) {i : Nat} (hi : i < 8) :
    readReg i t = readReg i s := by
  simp [readReg_of_lt hi, h]

/-! ## Decimal digits -/

theorem digit_toNat {n : Nat} (h : n < 10) : (digit n).toNat = 0x30 + n := by
  simp [digit]; omega

/-! ## The stack pointer -/

@[simp] theorem sp_eq (s : State) : s.regs[7] = s.sp := rfl

theorem moveSp_of_mem {a : Int} (h : inMemory a) (s : State) :
    moveSp a s = .ok (s.withRegs (s.regs.set 7 (BitVec.ofInt 8 a))) := by
  rw [moveSp, if_pos h]

theorem moveSp_of_not_mem {a : Int} (h : ¬ inMemory a) (s : State) :
    moveSp a s = .error ⟨.mem, a, s.pc⟩ := by
  rw [moveSp, if_neg h]; rfl

theorem ofInt_pred (b : Byte) : BitVec.ofInt 8 ((b.toNat : Int) - 1) = b - 1#8 := by
  rw [Int.sub_eq_add_neg, BitVec.ofInt_add, BitVec.ofInt_natCast, BitVec.ofNat_toNat,
    BitVec.setWidth_eq]; bv_omega

theorem ofInt_succ (b : Byte) : BitVec.ofInt 8 ((b.toNat : Int) + 1) = b + 1#8 := by
  rw [BitVec.ofInt_add, BitVec.ofInt_natCast, BitVec.ofNat_toNat, BitVec.setWidth_eq]; rfl

theorem toNat_pred {b : Byte} (h : b ≠ 0#8) : (b - 1#8).toNat = b.toNat - 1 := by bv_omega

theorem toNat_succ {b : Byte} (h : b ≠ 0xFF#8) : (b + 1#8).toNat = b.toNat + 1 := by bv_omega

/-- The step down: `x[7] - 1`, or the fault at `x[7]` = 0. -/
theorem stepSpDown_eq (s : State) :
    stepSpDown s = if s.sp = 0#8 then .error ⟨.mem, -1, s.pc⟩
      else .ok (s.withRegs (s.regs.set 7 (s.sp - 1#8))) := by
  have hlt := s.sp.isLt
  unfold stepSpDown pushAddress
  split
  · rename_i h
    have h0 : s.sp.toNat = 0 := by simp [h]
    rw [moveSp_of_not_mem (by simp [inMemory, h0]), h0]
    rfl
  · rename_i h
    have h0 : s.sp.toNat ≠ 0 := fun hc => h (BitVec.eq_of_toNat_eq hc)
    rw [moveSp_of_mem (by simp [inMemory]; omega), ofInt_pred]

/-- The step up: `x[7] + 1`, or the fault at `x[7]` = 255. -/
theorem stepSpUp_eq (s : State) :
    stepSpUp s = if s.sp = 0xFF#8 then .error ⟨.mem, 256, s.pc⟩
      else .ok (s.withRegs (s.regs.set 7 (s.sp + 1#8))) := by
  have hlt := s.sp.isLt
  unfold stepSpUp
  split
  · rename_i h
    have h0 : s.sp.toNat = 255 := by simp [h]
    rw [moveSp_of_not_mem (by simp [inMemory, h0]), h0]
    rfl
  · rename_i h
    have h0 : s.sp.toNat ≠ 255 := fun hc => h (BitVec.eq_of_toNat_eq hc)
    rw [moveSp_of_mem (by simp [inMemory]; omega), ofInt_succ]

/-- Where a push that does not fault stores. -/
theorem pushAddress_eq {s : State} (h : s.sp ≠ 0#8) :
    pushAddress s = ((s.sp.toNat - 1 : Nat) : Int) := by
  have : s.sp.toNat ≠ 0 := fun hc => h (BitVec.eq_of_toNat_eq hc)
  simp only [pushAddress]; omega

/-- The store of a push that does not fault is always in range. -/
theorem memWrite_push {s : State} (h : s.sp ≠ 0#8) (v : Byte) (t : State) :
    memWrite (pushAddress s) v t = .ok (t.withMem (t.mem.write (s.sp.toNat - 1) v)) := by
  have := s.sp.isLt
  rw [pushAddress_eq h, memWrite_of_lt (by omega)]

/-- The read of a pop is always in range. -/
theorem memRead_pop (s t : State) : memRead (popAddress s) t = .ok (t.mem.read s.sp.toNat) :=
  memRead_byte s.sp t

/-! ## The end of a cycle -/

@[simp] theorem conclude_advance (n : Nat) (s t : State) :
    conclude n s (.ok (t, .advance)) = .next (t.withPc (s.pc + 1 + n)) := rfl

@[simp] theorem conclude_jump (n : Nat) (s t : State) (target : Byte) :
    conclude n s (.ok (t, .jump target)) = .next (t.withPc target.toNat) := rfl

@[simp] theorem conclude_error (n : Nat) (s : State) (info : OutOfBounds) :
    conclude n s (.error info) = .next (abort info s) := rfl

/-- A cycle that reaches its end answers a next state. -/
theorem conclude_next (n : Nat) (s : State) (h : Handled) : ∃ t, conclude n s h = .next t := by
  rcases h with info | ⟨t, _ | target⟩ <;> exact ⟨_, rfl⟩

end Sys2Proof.Machine
end

