-- ==== Sys2Proof/Laws/Meanings.lean ====
section
/-! SUPPORT. What each meaning answers, in closed form: the next state where it raises nothing, and
the abort where it does. Later proofs cite these and unfold no meaning. -/

namespace Sys2Proof.Machine

theorem execLdi_ok {r : Nat} (h : r < 8) (v : Byte) (s : State) :
    execLdi r v s = .next ((s.withRegs (s.regs.set r v)).withPc (s.pc + 3)) := by
  simp [execLdi, handleLdi, writeReg_of_lt h, bind, Except.bind]

theorem execLdi_badReg {r : Nat} (h : 8 ≤ r) (v : Byte) (s : State) :
    execLdi r v s = .next (abort ⟨.reg, r, s.pc⟩ s) := by
  simp [execLdi, handleLdi, writeReg_of_ge h, bind, Except.bind]

theorem execPrn_ok {r : Nat} (h : r < 8) (s : State) :
    execPrn r s = .next ((s.emit (printedLine s.regs[r])).withPc (s.pc + 2)) := by
  simp [execPrn, handlePrn, readReg_of_lt h, bind, Except.bind]

theorem execPrn_badReg {r : Nat} (h : 8 ≤ r) (s : State) :
    execPrn r s = .next (abort ⟨.reg, r, s.pc⟩ s) := by
  simp [execPrn, handlePrn, readReg_of_ge h, bind, Except.bind]

theorem execMul_ok {a b : Nat} (ha : a < 8) (hb : b < 8) (s : State) :
    execMul a b s =
      .next ((s.withRegs (s.regs.set a (product s.regs[a] s.regs[b]))).withPc (s.pc + 3)) := by
  simp [execMul, handleMul, readReg_of_lt ha, readReg_of_lt hb, writeReg_of_lt ha, bind,
    Except.bind]

theorem execMul_badA {a : Nat} (ha : 8 ≤ a) (b : Nat) (s : State) :
    execMul a b s = .next (abort ⟨.reg, a, s.pc⟩ s) := by
  simp [execMul, handleMul, readReg_of_ge ha, bind, Except.bind]

theorem execMul_badB {a b : Nat} (ha : a < 8) (hb : 8 ≤ b) (s : State) :
    execMul a b s = .next (abort ⟨.reg, b, s.pc⟩ s) := by
  simp [execMul, handleMul, readReg_of_lt ha, readReg_of_ge hb, bind, Except.bind]

/-- The registers after a push: the stack pointer is one lower. -/
theorem execPush_ok {r : Nat} (hr : r < 8) {s : State} (hs : s.sp ≠ 0#8) :
    execPush r s =
      .next (((s.withRegs (s.regs.set 7 (s.sp - 1#8))).withMem
        (s.mem.write (s.sp.toNat - 1) (if r = 7 then s.sp - 1#8 else s.regs[r]))).withPc
          (s.pc + 2)) := by
  have hreg : (s.regs.set 7 (s.sp - 1#8))[r] = if r = 7 then s.sp - 1#8 else s.regs[r] := by
    simp only [Vector.getElem_set, eq_comm]
  simp [execPush, handlePush, stepSpDown_eq, hs, readReg_of_lt hr, hreg, memWrite_push hs, bind,
    Except.bind]

theorem execPush_emptySp (r : Nat) {s : State} (hs : s.sp = 0#8) :
    execPush r s = .next (abort ⟨.mem, -1, s.pc⟩ s) := by
  simp [execPush, handlePush, stepSpDown_eq, hs, bind, Except.bind]

theorem execPush_badReg {r : Nat} (hr : 8 ≤ r) {s : State} (hs : s.sp ≠ 0#8) :
    execPush r s = .next (abort ⟨.reg, r, s.pc⟩ s) := by
  simp [execPush, handlePush, stepSpDown_eq, hs, readReg_of_ge hr, bind, Except.bind]

/-- The value the stack pointer steps up from in POP: the popped byte if register 7 is the
destination. -/
def popTop (r : Nat) (s : State) : Byte :=
  if r = 7 then s.mem.read s.sp.toNat else s.sp

theorem sp_set {r : Nat} (hr : r < 8) (s : State) :
    (s.regs.set r (s.mem.read s.sp.toNat))[7] = popTop r s := by
  simp only [Vector.getElem_set, popTop, sp_eq]

theorem execPop_ok {r : Nat} (hr : r < 8) {s : State} (hs : popTop r s ≠ 0xFF#8) :
    execPop r s =
      .next ((s.withRegs ((s.regs.set r (s.mem.read s.sp.toNat)).set 7 (popTop r s + 1#8))).withPc
        (s.pc + 2)) := by
  have h7 := sp_set hr s
  simp [execPop, handlePop, memRead_pop, writeReg_of_lt hr, stepSpUp_eq, State.withRegs_sp, h7, hs,
    bind, Except.bind]
  rfl

theorem execPop_badReg {r : Nat} (hr : 8 ≤ r) (s : State) :
    execPop r s = .next (abort ⟨.reg, r, s.pc⟩ s) := by
  simp [execPop, handlePop, memRead_pop, writeReg_of_ge hr, bind, Except.bind]

theorem execPop_fullSp {r : Nat} (hr : r < 8) {s : State} (hs : popTop r s = 0xFF#8) :
    execPop r s = .next (abort ⟨.mem, 256, s.pc⟩ s) := by
  have h7 := sp_set hr s
  simp [execPop, handlePop, memRead_pop, writeReg_of_lt hr, stepSpUp_eq, State.withRegs_sp, h7, hs,
    bind, Except.bind]

theorem execCall_ok {r : Nat} (hr : r < 8) {s : State} (hs : s.sp ≠ 0#8) :
    execCall r s =
      .next (((s.withRegs (s.regs.set 7 (s.sp - 1#8))).withMem
        (s.mem.write (s.sp.toNat - 1) (returnAddress s))).withPc
          (if r = 7 then s.sp - 1#8 else s.regs[r]).toNat) := by
  have hreg : (s.regs.set 7 (s.sp - 1#8))[r] = if r = 7 then s.sp - 1#8 else s.regs[r] := by
    simp only [Vector.getElem_set, eq_comm]
  simp [execCall, handleCall, stepSpDown_eq, hs, readReg_of_lt hr, hreg, memWrite_push hs, bind,
    Except.bind]

theorem execCall_emptySp (r : Nat) {s : State} (hs : s.sp = 0#8) :
    execCall r s = .next (abort ⟨.mem, -1, s.pc⟩ s) := by
  simp [execCall, handleCall, stepSpDown_eq, hs, bind, Except.bind]

theorem execCall_badReg {r : Nat} (hr : 8 ≤ r) {s : State} (hs : s.sp ≠ 0#8) :
    execCall r s = .next (abort ⟨.reg, r, s.pc⟩ s) := by
  simp [execCall, handleCall, stepSpDown_eq, hs, readReg_of_ge hr, memWrite_push hs, bind,
    Except.bind]

theorem execRet_ok {s : State} (hs : s.sp ≠ 0xFF#8) :
    execRet s =
      .next ((s.withRegs (s.regs.set 7 (s.sp + 1#8))).withPc (s.mem.read s.sp.toNat).toNat) := by
  simp [execRet, handleRet, memRead_pop, stepSpUp_eq, hs, bind, Except.bind]

theorem execRet_fullSp {s : State} (hs : s.sp = 0xFF#8) :
    execRet s = .next (abort ⟨.mem, 256, s.pc⟩ s) := by
  simp only [execRet, handleRet, memRead_pop, stepSpUp_eq, if_pos hs, bind, Except.bind,
    conclude_error]

theorem execHlt_ok (s : State) : execHlt s = .next ((s.withRun .halted).withPc (s.pc + 1)) := by
  simp [execHlt, handleHlt]

theorem stepOverUnknown_ok (o : Byte) (s : State) :
    stepOverUnknown o s =
      .next ((s.logWarning ⟨s.pc, o⟩).withPc (s.pc + 1 + operandCount o)) := by
  simp [stepOverUnknown]

/-- Every meaning answers a next state on every operand and in every state. -/
theorem exec_next (i : Instr) (s : State) : ∃ t, exec i s = .next t := by
  cases i with
  | ldi r v => exact conclude_next 2 s (handleLdi r v s)
  | prn r   => exact conclude_next 1 s (handlePrn r s)
  | mul a b => exact conclude_next 2 s (handleMul a b s)
  | push r  => exact conclude_next 1 s (handlePush r s)
  | pop r   => exact conclude_next 1 s (handlePop r s)
  | call r  => exact conclude_next 1 s (handleCall r s)
  | ret     => exact conclude_next 0 s (handleRet s)
  | hlt     => exact conclude_next 0 s (handleHlt s)

end Sys2Proof.Machine
end

