-- ==== Sys2Proof/Laws/Cycle.lean ====
section
/-! SUPPORT. What one instruction and one cycle can do, said once: either the cause in the table
of rule R153 aborts the cycle, or the instruction completes in the state `completed` gives. -/

namespace Sys2Proof.Machine

/-- The value of a register, by an index that need not exist. -/
def regAt (s : State) (r : Nat) : Byte := s.regs[r]?.getD 0#8

theorem regAt_of_lt {r : Nat} (h : r < 8) (s : State) : regAt s r = s.regs[r] := by
  simp [regAt, h]

@[simp] theorem regAt_sp (s : State) : regAt s 7 = s.sp := regAt_of_lt (by omega) s

/-- The state an instruction leaves when nothing is raised. -/
def completed (i : Instr) (s : State) : State :=
  match i with
  | .ldi r v => (s.withRegs (s.regs.setIfInBounds r v)).withPc (s.pc + 3)
  | .prn r   => (s.emit (printedLine (regAt s r))).withPc (s.pc + 2)
  | .mul a b =>
    (s.withRegs (s.regs.setIfInBounds a (product (regAt s a) (regAt s b)))).withPc (s.pc + 3)
  | .push r  =>
    ((s.withRegs (s.regs.set 7 (s.sp - 1#8))).withMem
      (s.mem.write (s.sp.toNat - 1) (if r = 7 then s.sp - 1#8 else regAt s r))).withPc (s.pc + 2)
  | .pop r   =>
    (s.withRegs ((s.regs.setIfInBounds r (s.mem.read s.sp.toNat)).set 7 (popTop r s + 1#8))).withPc
      (s.pc + 2)
  | .call r  =>
    ((s.withRegs (s.regs.set 7 (s.sp - 1#8))).withMem
      (s.mem.write (s.sp.toNat - 1) (returnAddress s))).withPc
        (if r = 7 then s.sp - 1#8 else regAt s r).toNat
  | .ret     =>
    (s.withRegs (s.regs.set 7 (s.sp + 1#8))).withPc (s.mem.read s.sp.toNat).toNat
  | .hlt     => (s.withRun .halted).withPc (s.pc + 1)

theorem set_of_lt {r : Nat} (h : r < 8) (v : Byte) (s : State) :
    s.regs.setIfInBounds r v = s.regs.set r v := by
  apply Vector.ext; intro j hj
  simp [Vector.getElem_setIfInBounds, Vector.getElem_set]

/-- What an instruction answers: the abort the table of rule R153 gives it, or its completion. -/
theorem exec_eq (i : Instr) (s : State) :
    exec i s = .next (match handlerCause i s with
      | some info => abort info s
      | none      => completed i s) := by
  have split_reg (r : Nat) : r < 8 ∧ registerCause r s = none ∨
      8 ≤ r ∧ registerCause r s = some ⟨.reg, r, s.pc⟩ := by
    unfold registerCause
    rcases Nat.lt_or_ge r 8 with h | h
    · exact .inl ⟨h, if_pos (by omega)⟩
    · exact .inr ⟨h, if_neg (by omega)⟩
  have split_push : s.sp ≠ 0#8 ∧ pushCause s = none ∨
      s.sp = 0#8 ∧ pushCause s = some ⟨.mem, -1, s.pc⟩ := by
    unfold pushCause; split <;> simp_all
  have split_pop (top : Byte) : top ≠ 0xFF#8 ∧ popCause top s = none ∨
      top = 0xFF#8 ∧ popCause top s = some ⟨.mem, 256, s.pc⟩ := by
    unfold popCause; split <;> simp_all
  cases i with
  | ldi r v =>
    rcases split_reg r with ⟨h, e⟩ | ⟨h, e⟩ <;> simp only [exec, handlerCause, e]
    · rw [execLdi_ok h, completed, set_of_lt h]
    · rw [execLdi_badReg h]
  | prn r =>
    rcases split_reg r with ⟨h, e⟩ | ⟨h, e⟩ <;> simp only [exec, handlerCause, e]
    · rw [execPrn_ok h, completed, regAt_of_lt h]
    · rw [execPrn_badReg h]
  | mul a b =>
    rcases split_reg a with ⟨ha, ea⟩ | ⟨ha, ea⟩ <;> rcases split_reg b with ⟨hb, eb⟩ | ⟨hb, eb⟩ <;>
      simp only [exec, handlerCause, ea, eb, Option.or]
    · rw [execMul_ok ha hb, completed, set_of_lt ha, regAt_of_lt ha, regAt_of_lt hb]
    · rw [execMul_badB ha hb]
    · rw [execMul_badA ha]
    · rw [execMul_badA ha]
  | push r =>
    rcases split_push with ⟨hs, es⟩ | ⟨hs, es⟩ <;> rcases split_reg r with ⟨h, e⟩ | ⟨h, e⟩ <;>
      simp only [exec, handlerCause, es, e, Option.or]
    · rw [execPush_ok h hs, completed, regAt_of_lt h]
    · rw [execPush_badReg h hs]
    · rw [execPush_emptySp r hs]
    · rw [execPush_emptySp r hs]
  | pop r =>
    have hp : (if r = 7 then s.mem.read s.sp.toNat else s.sp) = popTop r s := rfl
    rcases split_reg r with ⟨h, e⟩ | ⟨h, e⟩ <;>
      rcases split_pop (popTop r s) with ⟨hs, es⟩ | ⟨hs, es⟩ <;>
      simp only [exec, handlerCause, hp, es, e, Option.or]
    · rw [execPop_ok h hs, completed, set_of_lt h]
    · rw [execPop_fullSp h hs]
    · rw [execPop_badReg h]
    · rw [execPop_badReg h]
  | call r =>
    rcases split_push with ⟨hs, es⟩ | ⟨hs, es⟩ <;> rcases split_reg r with ⟨h, e⟩ | ⟨h, e⟩ <;>
      simp only [exec, handlerCause, es, e, Option.or]
    · rw [execCall_ok h hs, completed, regAt_of_lt h]
    · rw [execCall_badReg h hs]
    · rw [execCall_emptySp r hs]
    · rw [execCall_emptySp r hs]
  | ret =>
    rcases split_pop s.sp with ⟨hs, es⟩ | ⟨hs, es⟩ <;> simp only [exec, handlerCause, es]
    · rw [execRet_ok hs, completed]
    · rw [execRet_fullSp hs]
  | hlt => simp only [exec, handlerCause, completed]; exact execHlt_ok s

/-! ## Causes -/

theorem fetchCause_eq_none {s : State} : fetchCause s = none ↔ s.pc ≤ 253 := by
  unfold fetchCause
  by_cases h : s.pc ≤ 253
  · simp [h]
  · by_cases h' : s.pc ≤ 255 <;> simp [h, h']

theorem fetchCause_spec {s : State} {info : OutOfBounds} (h : fetchCause s = some info) :
    info.pc = s.pc ∧ (s.pc ≤ 257 → info.legal) := by
  unfold fetchCause at h
  split at h
  · cases h
  · split at h <;> (cases h; exact ⟨rfl, fun hpc => by simp [OutOfBounds.legal] <;> omega⟩)

theorem registerCause_spec {r : Nat} {s : State} {info : OutOfBounds}
    (h : registerCause r s = some info) : info.pc = s.pc ∧ (r < 256 → info.legal) := by
  unfold registerCause at h
  split at h
  · cases h
  · cases h
    exact ⟨rfl, fun hr => by simp [OutOfBounds.legal]; omega⟩

theorem pushCause_spec {s : State} {info : OutOfBounds} (h : pushCause s = some info) :
    info.pc = s.pc ∧ info.legal := by
  unfold pushCause at h
  split at h <;> cases h
  exact ⟨rfl, by simp [OutOfBounds.legal]⟩

theorem popCause_spec {top : Byte} {s : State} {info : OutOfBounds}
    (h : popCause top s = some info) : info.pc = s.pc ∧ info.legal := by
  unfold popCause at h
  split at h <;> cases h
  exact ⟨rfl, by simp [OutOfBounds.legal]⟩

/-- What an instruction raises names the pc, and is legal if the instruction has an encoding. -/
theorem handlerCause_spec {i : Instr} {s : State} {info : OutOfBounds}
    (h : handlerCause i s = some info) : info.pc = s.pc ∧ (i.wellFormed → info.legal) := by
  have reg {r : Nat} (h : registerCause r s = some info) :
      info.pc = s.pc ∧ (fitsOperandByte r → info.legal) :=
    ⟨(registerCause_spec h).1, fun hw => (registerCause_spec h).2 (by
      simpa [fitsOperandByte] using hw)⟩
  cases i with
  | ldi r v => exact reg h
  | prn r => exact reg h
  | mul a b =>
    rcases Option.or_eq_some_iff.mp h with h | ⟨-, h⟩
    · exact ⟨(reg h).1, fun hw => (reg h).2 (by simp_all [Instr.wellFormed])⟩
    · exact ⟨(reg h).1, fun hw => (reg h).2 (by simp_all [Instr.wellFormed])⟩
  | push r =>
    rcases Option.or_eq_some_iff.mp h with h | ⟨-, h⟩
    · exact ⟨(pushCause_spec h).1, fun _ => (pushCause_spec h).2⟩
    · exact reg h
  | pop r =>
    rcases Option.or_eq_some_iff.mp h with h | ⟨-, h⟩
    · exact reg h
    · exact ⟨(popCause_spec h).1, fun _ => (popCause_spec h).2⟩
  | call r =>
    rcases Option.or_eq_some_iff.mp h with h | ⟨-, h⟩
    · exact ⟨(pushCause_spec h).1, fun _ => (pushCause_spec h).2⟩
    · exact reg h
  | ret => exact ⟨(popCause_spec h).1, fun _ => (popCause_spec h).2⟩
  | hlt => cases h

/-- What a cycle raises names the pc, and is legal while pc is at most 257. -/
theorem cycleCause_spec {ops : Opcodes} {s : State} {info : OutOfBounds}
    (h : cycleCause ops s = some info) : info.pc = s.pc ∧ (s.pc ≤ 257 → info.legal) := by
  rcases Option.or_eq_some_iff.mp h with h | ⟨-, h⟩
  · exact fetchCause_spec h
  · obtain ⟨i, hd, hi⟩ := Option.bind_eq_some_iff.mp h
    obtain ⟨k, -, rfl⟩ := decodeWindow_eq_some.mp hd
    exact ⟨(handlerCause_spec hi).1, fun _ => (handlerCause_spec hi).2 (wellFormed_instr _ _ k)⟩

/-! ## The cycle -/

/-- A cycle of a running machine, with the fetch already made. -/
theorem stepWith_running (ops : Opcodes) {s : State} (hr : s.run = .running) :
    stepWith ops s =
      match fetchCause s with
      | some info => .next (abort info s)
      | none      => dispatch ops ⟨s.opcodeByte, s.operandA, s.operandB⟩ s := by
  simp only [stepWith, hr, fetch_eq, fetchCause]
  by_cases h : s.pc ≤ 253
  · simp only [h, if_true]
  · by_cases h' : s.pc ≤ 255 <;> simp only [h, h', if_true, if_false]

/-- What a cycle can do: the three ways, with everything each does. -/
theorem stepWith_cases {ops : Opcodes} {s t : State} (h : stepWith ops s = .next t) :
    s.run = .running ∧
      ((∃ info, cycleCause ops s = some info ∧ t = abort info s) ∨
       (s.pc ≤ 253 ∧ cycleCause ops s = none ∧
        ∃ i, decodeWindow ops s.opcodeByte s.operandA s.operandB = some i ∧
          handlerCause i s = none ∧ t = completed i s) ∨
       (s.pc ≤ 253 ∧ cycleCause ops s = none ∧ s.opcodeByte ∉ knownOpcodes ops ∧
        t = (s.logWarning ⟨s.pc, s.opcodeByte⟩).withPc
          (s.pc + 1 + operandCount s.opcodeByte))) := by
  rcases hr : s.run with _ | _ | info
  · refine ⟨rfl, ?_⟩
    rw [stepWith_running ops hr] at h
    rcases hf : fetchCause s with _ | info
    · have hpc : s.pc ≤ 253 := fetchCause_eq_none.mp hf
      simp only [hf, dispatch] at h
      rcases hd : decodeWindow ops s.opcodeByte s.operandA s.operandB with _ | i
      · simp only [hd, stepOverUnknown_ok, Host.Outcome.next.injEq] at h
        exact .inr (.inr ⟨hpc, by simp [cycleCause, hf, hd], decodeWindow_eq_none.mp hd, h.symm⟩)
      · simp only [hd, exec_eq, Host.Outcome.next.injEq] at h
        rcases hc : handlerCause i s with _ | info
        · simp only [hc] at h
          exact .inr (.inl ⟨hpc, by simp [cycleCause, hf, hd, hc], i, rfl, hc, h.symm⟩)
        · simp only [hc] at h
          exact .inl ⟨info, by simp [cycleCause, hf, hd, hc], h.symm⟩
    · simp only [hf, Host.Outcome.next.injEq] at h
      exact .inl ⟨info, by simp [cycleCause, hf], h.symm⟩
  · simp [stepWith, hr] at h
  · simp [stepWith, hr] at h

/-- A running machine always completes its cycle. -/
theorem stepWith_next (ops : Opcodes) {s : State} (hr : s.run = .running) :
    ∃ t, stepWith ops s = .next t := by
  rw [stepWith_running ops hr]
  split
  · exact ⟨_, rfl⟩
  · unfold dispatch
    split
    · exact exec_next _ s
    · exact conclude_next _ _ _

/-! ## A word placed where it is fetched -/

theorem withFetchWord_pc (s : State) (nbits w : Nat) :
    (s.withFetchWord nbits w).pc = if s.pc ≤ 253 then s.pc else 0 := rfl

theorem withFetchWord_pc_le (s : State) (nbits w : Nat) : (s.withFetchWord nbits w).pc ≤ 253 := by
  rw [withFetchWord_pc]; split <;> omega

/-- Memory after the placing: the three bytes of the word at pc, and every other byte as before. -/
theorem withFetchWord_read (s : State) (nbits w a : Nat) :
    (s.withFetchWord nbits w).mem.read a =
      let p := (s.withFetchWord nbits w).pc
      if a = p then (tableWordBytes nbits w).1
      else if a = p + 1 then (tableWordBytes nbits w).2.1
      else if a = p + 2 then (tableWordBytes nbits w).2.2
      else s.mem.read a := by
  rw [withFetchWord_pc]
  simp only [State.withFetchWord, placeFetchWindow, State.withMem_mem, Memory.read_write]
  split_ifs <;> first | rfl | omega

/-! ## What a completed instruction leaves -/

@[simp] theorem completed_warn (i : Instr) (s : State) : (completed i s).warn = s.warn := by
  cases i <;> rfl

theorem completed_run (i : Instr) (s : State) :
    (completed i s).run = if i = .hlt then .halted else s.run := by
  cases i <;> simp [completed]

theorem completed_out (i : Instr) (s : State) :
    (completed i s).out =
      match i with
      | .prn r => s.out ++ printedLine (regAt s r)
      | _      => s.out := by
  cases i <;> simp [completed]

theorem completed_mem (i : Instr) (s : State) :
    (completed i s).mem =
      match i with
      | .push r => s.mem.write (s.sp.toNat - 1) (if r = 7 then s.sp - 1#8 else regAt s r)
      | .call _ => s.mem.write (s.sp.toNat - 1) (returnAddress s)
      | _       => s.mem := by
  cases i <;> simp [completed]

theorem completed_regs (i : Instr) (s : State) (j : Nat) (hj : j < 8) :
    (completed i s).regs[j] =
      match i with
      | .ldi r v           => if r = j then v else s.regs[j]
      | .mul a b           => if a = j then product (regAt s a) (regAt s b) else s.regs[j]
      | .push _ | .call _  => if 7 = j then s.sp - 1#8 else s.regs[j]
      | .pop r             => if 7 = j then popTop r s + 1#8
                              else if r = j then s.mem.read s.sp.toNat else s.regs[j]
      | .ret               => if 7 = j then s.sp + 1#8 else s.regs[j]
      | .prn _ | .hlt      => s.regs[j] := by
  cases i <;>
    simp only [completed, State.withPc_regs, State.withMem_regs, State.withRegs_regs,
      State.emit_regs, State.withRun_regs, Vector.getElem_set, Vector.getElem_setIfInBounds]

theorem completed_pc (i : Instr) (s : State) :
    (completed i s).pc =
      match i with
      | .ldi _ _ | .mul _ _         => s.pc + 3
      | .prn _ | .push _ | .pop _   => s.pc + 2
      | .call r                     => (if r = 7 then s.sp - 1#8 else regAt s r).toNat
      | .ret                        => (s.mem.read s.sp.toNat).toNat
      | .hlt                        => s.pc + 1 := by
  cases i <;> simp [completed]

end Sys2Proof.Machine
end

