-- ==== Sys2Proof/Laws/Loader.lean ====
section
/-! SUPPORT. What the load and the placing of an instruction can do: the bytes they put in memory,
and that memory stays in canonical form. -/

namespace Sys2Proof.Machine

/-- The load of an image that fits: only memory changes, by the bytes of the image. -/
theorem loadFrom_ok (vs : List Byte) : ∀ (a : Nat) (s : State), a + vs.length ≤ 256 →
    ∃ m, loadFrom a vs s = .ok (s.withMem m) ∧ (s.mem.wf → m.wf) ∧
      ∀ x, m.read x = if h : a ≤ x ∧ x < a + vs.length then vs[x - a] else s.mem.read x := by
  induction vs with
  | nil =>
    intro a s _
    exact ⟨s.mem, rfl, id, fun x => by rw [dif_neg (by simp)]⟩
  | cons v vs ih =>
    intro a s h
    simp only [List.length_cons] at h
    obtain ⟨m, load_rest, wf_rest, read_rest⟩ :=
      ih (a + 1) (s.withMem (s.mem.write a v)) (by omega)
    refine ⟨m, ?_, fun hw => wf_rest (Memory.wf_write hw (show a < 256 by omega) v), fun x => ?_⟩
    · rw [loadFrom, memWrite_of_lt (by omega)]
      exact load_rest
    · rw [read_rest, State.withMem_mem, Memory.read_write]
      split
      · rw [dif_pos (by simp only [List.length_cons]; omega), List.getElem_cons,
          dif_neg (by omega)]
        congr 1
      · split
        · subst x
          rw [dif_pos (by simp)]
          simp
        · rw [dif_neg (by simp only [List.length_cons]; omega)]

/-- The load of an image that does not fit raises at the first byte past memory. -/
theorem loadFrom_err (vs : List Byte) : ∀ (a : Nat) (s : State), a ≤ 256 → 256 < a + vs.length →
    loadFrom a vs s = .error ⟨.mem, 256, s.pc⟩ := by
  induction vs with
  | nil => intro a s h h'; simp at h'; omega
  | cons v vs ih =>
    intro a s h h'
    simp only [List.length_cons] at h'
    rw [loadFrom]
    by_cases ha : a = 256
    · subst ha; rfl
    · rw [memWrite_of_lt (by omega)]
      exact ih (a + 1) _ (by omega) (by omega)

/-- Placing an instruction keeps the canonical form of memory. -/
theorem placeFetchWindow_keeps_wf (w : FetchWindow) {s : State} (h : s.mem.wf) :
    (placeFetchWindow w s).mem.wf := by
  have place (p : Nat) (hp : p ≤ 253) :
      (((s.mem.write p w.opcode).write (p + 1) w.a).write (p + 2) w.b).wf :=
    Memory.wf_write (Memory.wf_write (Memory.wf_write h (show p < 256 by omega) _)
      (show p + 1 < 256 by omega) _) (show p + 2 < 256 by omega) _
  exact place (if s.pc ≤ 253 then s.pc else 0) (by split <;> omega)

end Sys2Proof.Machine
end

