-- ==== Sys2Proof/Laws/PerInstr.lean ====
section
/-! SUPPORT. Statements about every instruction as syntax, one lemma per constructor. -/

namespace Sys2Proof.Laws.Shape

/-- The first byte of the encoding carries the decoded fields of the instruction: the operand count
is the number of bytes that follow, and "sets PC" is set for CALL and RETURN only (30_encoding.md
rules R60 and R62, 40_fetch_decode_dispatch.md rule R84). -/
def Statement (i : Instr) : Prop :=
  ∀ ops : Opcodes, ops.admissible →
    ∃ o rest, encode ops i = o :: rest ∧ operandCount o = rest.length ∧
      (setsPc o = true ↔ (∃ r, i = .call r) ∨ i = .ret)

/-- The Decoder's two outputs are the two fields. -/
theorem decoder_of_fields {o : Byte} {c : BitVec 2} {p : Bool}
    (h : (o.extractLsb' 6 2, o.getLsbD 4) = (c, p)) : operandCount o = c.toNat ∧ setsPc o = p := by
  obtain ⟨rfl, rfl⟩ := Prod.mk.inj h
  revert h; revert o; decide

theorem ldi (r : Nat) (v : Byte) : Statement (.ldi r v) := fun _ ha =>
  have h := decoder_of_fields (opcode_fields ha .ldi)
  ⟨_, _, rfl, h.1, by simp [h.2]⟩

theorem prn (r : Nat) : Statement (.prn r) := fun _ ha =>
  have h := decoder_of_fields (opcode_fields ha .prn)
  ⟨_, _, rfl, h.1, by simp [h.2]⟩

theorem mul (a b : Nat) : Statement (.mul a b) := fun _ ha =>
  have h := decoder_of_fields (opcode_fields ha .mul)
  ⟨_, _, rfl, h.1, by simp [h.2]⟩

theorem push (r : Nat) : Statement (.push r) := fun _ ha =>
  have h := decoder_of_fields (opcode_fields ha .push)
  ⟨_, _, rfl, h.1, by simp [h.2]⟩

theorem pop (r : Nat) : Statement (.pop r) := fun _ ha =>
  have h := decoder_of_fields (opcode_fields ha .pop)
  ⟨_, _, rfl, h.1, by simp [h.2]⟩

theorem call (r : Nat) : Statement (.call r) := fun _ ha =>
  have h := decoder_of_fields (opcode_fields ha .call)
  ⟨_, _, rfl, h.1, by simp [h.2]⟩

theorem ret : Statement .ret := fun _ ha =>
  have h := decoder_of_fields (opcode_fields ha .ret)
  ⟨_, _, rfl, h.1, by simp [h.2]⟩

theorem hlt : Statement .hlt := fun _ ha =>
  have h := decoder_of_fields (opcode_fields ha .hlt)
  ⟨_, _, rfl, h.1, by simp [h.2]⟩

end Sys2Proof.Laws.Shape
end

