-- ==== Sys2Proof/Tests/Slice0.lean ====
section
/-! SUPPORT. Tests of the model, and a witness for the hypotheses of every statement that has some.
Expected results are the spec's own: 30_encoding.md rule R66 for the words, 95_test_vectors.md (the
vector is named in the comment) for the steps. -/

namespace Sys2Proof.Tests

open Sys2Proof.Machine

/-! ## Helpers -/

/-- The next state of an outcome, if it is one. -/
def after : Host.Outcome State Fault Refusal → Option State
  | .next t => some t
  | _       => none

/-- A running machine with bytes in memory, every register as at reset but the two given. -/
def machine (pc : Nat) (mem : Memory) (x0 sp : Byte) : State :=
  { State.reset with pc := pc, mem := mem, regs := #v[x0, 0, 0, 0, 0, 0, 0, sp] }

/-- A choice of the open opcode bytes other than the default one. -/
def otherOpcodes : Opcodes := ⟨0x80#8, 0x40#8, 0x41#8, 0x70#8⟩

/-! ## Decoding: words written from rule R66, operand bytes `aaaaaaaa`, `bbbbbbbb` filled in -/

theorem test_decode_ldi : decode Config.opcodes [0b10000010#8, 0b00000011#8, 0b11111110#8] =
    .ok (.ldi 3 254#8) := by decide
theorem test_decode_prn : decode Config.opcodes [0b01000111#8, 0b00000110#8, 0b00000001#8] =
    .ok (.prn 6) := by decide
theorem test_decode_mul : decode Config.opcodes [0b10100010#8, 0b00000010#8, 0b00000101#8] =
    .ok (.mul 2 5) := by decide
theorem test_decode_push : decode Config.opcodes [0b01000101#8, 0b00000111#8, 0b00000000#8] =
    .ok (.push 7) := by decide
theorem test_decode_pop : decode Config.opcodes [0b01000110#8, 0b10000001#8, 0b00000000#8] =
    .ok (.pop 129) := by decide
theorem test_decode_call : decode Config.opcodes [0b01010000#8, 0b00000001#8, 0b00000000#8] =
    .ok (.call 1) := by decide
theorem test_decode_ret : decode Config.opcodes [0b00010001#8, 0b11111111#8, 0b11111111#8] =
    .ok .ret := by decide
theorem test_decode_hlt : decode Config.opcodes [0b00000001#8, 0b11111111#8, 0b11111111#8] =
    .ok .hlt := by decide

/-- 95_test_vectors.md section 2.1, the rows with selection NONE. -/
theorem test_decode_rejects_by_name :
    ∀ o ∈ [0x00#8, 0x10#8, 0x02#8, 0x07#8, 0x40#8, 0x51#8, 0x90#8, 0xA0#8, 0xC0#8, 0xFF#8],
      decode Config.opcodes [o, 0#8, 0#8] = .error (.unknownOpcode o) := by decide

theorem test_decode_short : decode Config.opcodes [0x01#8, 0#8] = .error (.shortWindow 2) := by
  decide

/-- 95_test_vectors.md section 2.1, the columns operand_count and sets_pc. -/
theorem test_decoder_outputs :
    ([0x82#8, 0x47#8, 0x50#8, 0x11#8, 0x01#8, 0x10#8, 0x40#8, 0x90#8, 0xC0#8, 0xFF#8].map
      fun o => (operandCount o, setsPc o)) =
    [(2, false), (1, false), (1, true), (0, true), (0, false), (0, true), (1, false), (2, true),
      (3, false), (3, true)] := by decide

/-- The counts of 95_test_vectors.md section 2.1: 248 bytes without a handler, 126 of them with
bit 4 set, 64 of operand count 3. -/
theorem test_unknown_counts :
    let unknown := ((List.range 256).map (BitVec.ofNat 8)).filter
      fun o => (select Config.opcodes o).isNone
    unknown.length = 248 ∧ (unknown.filter setsPc).length = 126 ∧
      (unknown.filter fun o => operandCount o == 3).length = 64 := by decide +kernel

/-! ## What WellFormed refuses -/

theorem test_refuses_ldi_register : Instr.wellFormed (.ldi 256 0#8) = false := by decide
theorem test_refuses_prn_register : Instr.wellFormed (.prn 256) = false := by decide
theorem test_refuses_mul_first : Instr.wellFormed (.mul 256 0) = false := by decide
theorem test_refuses_mul_second : Instr.wellFormed (.mul 0 256) = false := by decide
theorem test_refuses_push_register : Instr.wellFormed (.push 256) = false := by decide
theorem test_refuses_pop_register : Instr.wellFormed (.pop 256) = false := by decide
theorem test_refuses_call_register : Instr.wellFormed (.call 256) = false := by decide
theorem test_accepts_last_index : Instr.wellFormed (.mul 255 255) = true := by decide

/-- One choice of opcode bytes for each constraint of rule R7 it breaks: for MULTIPLY the count,
bit 4 and 0x82; for PUSH the count, bit 4, 0x47 and POP's byte; for POP the count, bit 4 and 0x47;
for CALL the count and bit 4. -/
theorem test_refuses_opcodes :
    ∀ ops ∈ [({ Config.opcodes with mul := 0x62#8 } : Opcodes),
      { Config.opcodes with mul := 0xB2#8 }, { Config.opcodes with mul := 0x82#8 },
      { Config.opcodes with push := 0x85#8 }, { Config.opcodes with push := 0x55#8 },
      { Config.opcodes with push := 0x47#8 }, { Config.opcodes with push := 0x46#8 },
      { Config.opcodes with pop := 0x06#8 }, { Config.opcodes with pop := 0x56#8 },
      { Config.opcodes with pop := 0x47#8 }, { Config.opcodes with call := 0x90#8 },
      { Config.opcodes with call := 0x40#8 }], ops.admissible = false := by decide

theorem test_accepts_opcodes : Config.opcodes.admissible ∧ otherOpcodes.admissible := by decide

/-- Exit statuses that break rule R7: a zero, and two that are equal. -/
theorem test_refuses_exit_codes :
    ∀ e ∈ [(⟨0, 2⟩ : ExitCodes), ⟨1, 0⟩, ⟨1, 1⟩], e.admissible = false := by decide

/-! ## Steps -/

/-- Program P1, first cycle. -/
theorem test_ldi : (after (step (State.reset.withFetchWord 24 0x080082))).map
    (fun t => (t.regs[0], t.pc)) = some (8#8, 3) := by decide
/-- Vector V-LDI-bad. -/
theorem test_ldi_bad : (after (step (machine 0 [(0, 0x82#8), (1, 0x08#8), (2, 0x01#8)] 0 0xF4))) =
    some { machine 0 [(0, 0x82#8), (1, 0x08#8), (2, 0x01#8)] 0 0xF4 with
      run := .aborted ⟨.reg, 8, 0⟩ } := by decide

/-- Vectors V13a to V13f: the spelling of a value. -/
theorem test_prn_spelling : [0#8, 7#8, 10#8, 99#8, 100#8, 255#8].map printedLine =
    [[0x30#8, 0x0A#8], [0x37#8, 0x0A#8], [0x31#8, 0x30#8, 0x0A#8], [0x39#8, 0x39#8, 0x0A#8],
      [0x31#8, 0x30#8, 0x30#8, 0x0A#8], [0x32#8, 0x35#8, 0x35#8, 0x0A#8]] := by decide
/-- Vector V-PRN-sp. -/
theorem test_prn : (after (step (State.reset.withFetchWord 16 0x0747))).map
    (fun t => (t.out, t.pc)) = some ([0x32#8, 0x34#8, 0x34#8, 0x0A#8], 2) := by decide

/-- 95_test_vectors.md section 2.3, the products. -/
theorem test_mul_products :
    ([(8, 9), (255, 255), (128, 2), (16, 16), (0, 77), (1, 200), (15, 17), (200, 3)].map
      fun f : Byte × Byte => (product f.1 f.2).toNat) = [72, 1, 0, 0, 0, 200, 255, 88] := by decide
/-- Vector V14b, and the first index reported in V14a. -/
theorem test_mul_bad : (after (step (State.reset.withFetchWord 24 0xC801A2))).map State.run =
      some (.aborted ⟨.reg, 200, 0⟩) ∧
    (after (step (State.reset.withFetchWord 24 0xC809A2))).map State.run =
      some (.aborted ⟨.reg, 9, 0⟩) := by decide

/-- Vectors V5 and V2. -/
theorem test_push : (after (step (State.reset.withFetchWord 16 0x0745))).map
      (fun t => (t.sp, t.mem.read 0xF3)) = some (0xF3#8, 0xF3#8) ∧
    (after (step (machine 0 [(0, 0x45#8), (2, 0x01#8)] 0xAB 0x01))).map
      (fun t => (t.sp, t.mem, t.pc)) = some (0x00#8, [(0, 0xAB#8), (2, 0x01#8)], 2) := by decide
/-- Vectors V1 and V16a: the stack step is reported. -/
theorem test_push_faults : (after (step (machine 0 [(0, 0x45#8)] 1 0x00))).map State.run =
      some (.aborted ⟨.mem, -1, 0⟩) ∧
    (after (step (machine 0 [(0, 0x45#8), (1, 0x08#8)] 1 0x00))).map State.run =
      some (.aborted ⟨.mem, -1, 0⟩) := by decide

/-- Vectors V4 and V6. -/
theorem test_pop : (after (step (machine 0 [(0, 0x46#8), (0xFE, 0x77#8)] 0 0xFE))).map
      (fun t => (t.regs[0], t.sp, t.mem.read 0xFE)) = some (0x77#8, 0xFF#8, 0x77#8) ∧
    (after (step (machine 0 [(0, 0x46#8), (1, 0x07#8), (0xF4, 0x20#8)] 0 0xF4))).map State.sp =
      some 0x21#8 := by decide
/-- Vectors V15 and V6b. -/
theorem test_pop_faults : (after (step (machine 0 [(0, 0x46#8), (1, 0x08#8)] 0 0xFF))).map
      State.run = some (.aborted ⟨.reg, 8, 0⟩) ∧
    (after (step (machine 0 [(0, 0x46#8), (1, 0x07#8), (0xF4, 0xFF#8)] 0 0xF4))).map
      (fun t => (t.run, t.sp)) = some (.aborted ⟨.mem, 256, 0⟩, 0xF4#8) := by decide

/-- Vector V-CALL (with the target in R0), and V7. -/
theorem test_call : (after (step (machine 6 [(6, 0x50#8)] 0x0B 0xF4))).map
      (fun t => (t.sp, t.mem.read 0xF3, t.pc)) = some (0xF3#8, 0x08#8, 0x0B) ∧
    (after (step (machine 0 [(0, 0x50#8), (1, 0x07#8)] 0 0xF4))).map
      (fun t => (t.sp, t.mem.read 0xF3, t.pc)) = some (0xF3#8, 0x02#8, 0xF3) := by decide
/-- Vectors V18 and V21. -/
theorem test_call_faults : (after (step (machine 0 [(0, 0x50#8), (1, 0x10#8)] 0 0xF4))).map
      (fun t => (t.run, t.sp, t.mem.read 0xF3)) = some (.aborted ⟨.reg, 16, 0⟩, 0xF4#8, 0#8) ∧
    (after (step (machine 0 [(0, 0x50#8)] 0 0x00))).map State.run =
      some (.aborted ⟨.mem, -1, 0⟩) := by decide

/-- Vector V-RET. -/
theorem test_ret : (after (step (machine 0x0E [(0x0E, 0x11#8), (0xF3, 0x08#8)] 0 0xF3))).map
    (fun t => (t.pc, t.sp)) = some (8, 0xF4#8) := by decide
/-- Vector V22. -/
theorem test_ret_fault : (after (step (machine 0 [(0, 0x11#8)] 0 0xFF))).map State.run =
    some (.aborted ⟨.mem, 256, 0⟩) := by decide

/-- Vector V-HLT; and no cycle after it. -/
theorem test_hlt : (after (step (State.reset.withFetchWord 8 0x01))).map
      (fun t => (t.run, t.pc, t.out, t.warn)) = some (.halted, 1, [], []) ∧
    step (State.reset.withRun .halted) = .fault .halted := ⟨by decide, rfl⟩
/-- Vectors V9 and V9b: a HALT at 254 is not executed, one at 253 is. -/
theorem test_hlt_at_the_end :
    (after (step (machine 254 [(254, 0x01#8)] 0 0xF3))).map State.run =
      some (.aborted ⟨.mem, 256, 254⟩) ∧
    (after (step (machine 253 [(253, 0x01#8)] 0 0xF3))).map (fun t => (t.run, t.pc)) =
      some (.halted, 254) := by decide

/-- Vectors V10 and V11: bit 4 ignored, and the largest pc. -/
theorem test_unknown : (after (step (machine 0 [(0, 0x10#8), (1, 0x01#8)] 0 0xF4))).map
      (fun t => (t.pc, t.warn)) = some (1, [⟨0, 0x10#8⟩]) ∧
    (after (step (machine 253 [(253, 0xC0#8)] 0 0xF4))).map (fun t => (t.pc, t.warn)) =
      some (257, [⟨253, 0xC0#8⟩]) := by decide
/-- The last cycles of vectors V12 and V11. -/
theorem test_fetch_beyond : (after (step (machine 256 [] 0 0xF3))).map State.run =
      some (.aborted ⟨.mem, 256, 256⟩) ∧
    (after (step (machine 257 [] 0 0xF3))).map State.run =
      some (.aborted ⟨.mem, 257, 257⟩) := by decide

/-! ## Notation -/

/-- The example of rule R72, a blank line, and a line the format does not have. -/
theorem test_text : imageOfText ["10000010 # LDI R0,8".toList, "".toList, "  # a comment".toList,
      " 00000001".toList] = .ok [0x82#8, 0x01#8] ∧
    byteOfLine "1000001".toList = .error (.malformedLine "1000001".toList) := by decide
/-- The example of rule R73, its other spellings of a byte, and the directive. -/
theorem test_assembly : (asmItem "LDI R0, 8".toList).map (AsmItem.bytes Config.opcodes) =
      some [0x82#8, 0x00#8, 0x08#8] ∧
    asmItem (assembly (.mul 9 200)).toList = some (.instr (.mul 9 200)) ∧
    asmItem "LDI R1, 0x0B".toList = some (.instr (.ldi 1 11#8)) ∧
    asmItem ".byte 0b11111111".toList = some (.rawByte 0xFF#8) ∧
    asmItem "RET".toList = some (.instr .ret) ∧ asmItem "RET R0".toList = none ∧
    asmItem "PUSH R256".toList = none := by decide

/-! ## Witnesses: states and operands that meet the hypotheses of each statement

A state at the edge of each range is used: pc 253, stack pointer 1 or 254, register 7, index 8. -/

theorem witness_HandlersAgreeWithTheirEncoding : Config.opcodes.admissible ∧
    handlerCause (.ldi 7 0xFF#8) State.reset = none ∧ handlerCause (.call 7) State.reset = none ∧
    handlerCause .ret State.reset = none ∧
    setsPc 0x82#8 = false ∧ setsPc 0x50#8 = true := by decide

theorem witness_MultiplexerSelectsEightBytes : otherOpcodes.admissible ∧
    select otherOpcodes 0x70#8 = some .call ∧ select otherOpcodes 0x50#8 = none := by decide

theorem witness_DecodeInvertsEncode :
    (otherOpcodes.admissible ∧ Instr.wellFormed (.mul 255 255) ∧
      3 ≤ (encode otherOpcodes (.mul 255 255) ++ []).length) ∧
    (Config.opcodes.admissible ∧ Instr.wellFormed .hlt ∧
      3 ≤ (encode Config.opcodes .hlt ++ [0xFF#8, 0x01#8]).length) := by decide

theorem witness_EncodeInvertsDecode :
    decode otherOpcodes [0x40#8, 0xFF#8, 0x01#8, 0x02#8] = .ok (.push 255) := by decide

theorem witness_DecodeRejectsByName :
    decode Config.opcodes [0x00#8, 1#8, 1#8] = .error (.unknownOpcode 0x00#8) ∧
    0x00#8 ∉ knownOpcodes Config.opcodes ∧
    decode Config.opcodes [] = .error (.shortWindow 0) ∧ ([] : List Byte).length < 3 := by decide

theorem witness_MemReadIsBoundsChecked : ((0 : Int) ≤ 255 ∧ (255 : Int) ≤ 255) ∧
    memRead 255 (machine 0 [(255, 9#8)] 0 0) = .ok 9#8 ∧
    memRead (-1) (machine 3 [] 0 0) = .error ⟨.mem, -1, 3⟩ ∧
    memRead 256 (machine 3 [] 0 0) = .error ⟨.mem, 256, 3⟩ := by decide

theorem witness_MemWriteChangesOneByte :
    memWrite 255 9#8 (machine 0 [(254, 1#8)] 0 0) =
      .ok (machine 0 [(254, 1#8), (255, 9#8)] 0 0) ∧
    memWrite 0 0#8 (machine 0 [(0, 1#8)] 0 0) = .ok (machine 0 [] 0 0) ∧
    memWrite (-1) 9#8 (machine 3 [] 0 0) = .error ⟨.mem, -1, 3⟩ ∧
    memWrite 256 9#8 (machine 3 [] 0 0) = .error ⟨.mem, 256, 3⟩ := by decide

theorem witness_RegisterAccessIsBoundsChecked : (7 < 8 ∧ 8 ≤ 8) ∧
    writeReg 7 9#8 (machine 0 [] 1 0) = .ok (machine 0 [] 1 9) ∧
    writeReg 8 9#8 (machine 2 [] 1 0) = .error ⟨.reg, 8, 2⟩ ∧
    readReg 255 (machine 2 [] 1 0) = .error ⟨.reg, 255, 2⟩ := by decide

theorem witness_LdiLoadsItsRegister : (7 < 8 ∧ 8 ≤ 255) ∧
    (after (exec (.ldi 7 0x80#8) State.reset)).map pushAddress = some 0x7F ∧
    (after (exec (.ldi 255 0#8) State.reset)).map State.run =
      some (.aborted ⟨.reg, 255, 0⟩) := by decide

theorem witness_PrnPrintsItsRegister : (0 < 8 ∧ 7 < 8 ∧ 8 ≤ 8) ∧
    (after (exec (.prn 8) State.reset)).map (fun t => (t.run, t.out)) =
      some (.aborted ⟨.reg, 8, 0⟩, []) := by decide

/-- A line spells the number of all its leading digits: "80\n" spells 80 and does not spell 8. -/
theorem test_spelling_takes_all_digits : spellsNumber [0x38#8, 0x30#8, 0x0A#8] 80 ∧
    ¬ spellsNumber [0x38#8, 0x30#8, 0x0A#8] 8 := by
  refine ⟨⟨[0x38#8, 0x30#8], 0x0A#8, [], by decide⟩, ?_⟩
  rintro ⟨digits, stop, rest, hline, hne, -, hstop, hvalue⟩
  match digits with
  | [] => exact hne rfl
  | [_] => simp at hline; exact hstop (by rw [← hline.2.1]; decide)
  | [_, _] => simp at hline; simp [decimalValue, ← hline.1, ← hline.2.1] at hvalue
  | _ :: _ :: _ :: _ => simp at hline

theorem witness_DecimalSpellingIsCanonical :
    (decimal 0#8).head? = some 0x30#8 ∧ printedLine 10#8 ≠ printedLine 1#8 := by decide

theorem witness_MulWritesTheProduct : (7 < 8 ∧ (8 ≤ 8 ∨ 8 ≤ 0) ∧ (8 ≤ 7 ∨ 8 ≤ 255)) ∧
    (after (exec (.mul 7 7) (machine 0 [] 0 16))).map State.sp = some 0#8 := by decide

theorem witness_MulIsSignAgnosticAndCommutes : ∃ t u,
    exec (.mul 0 7) (machine 0 [] 200 3) = .next t ∧ exec (.mul 7 0) (machine 0 [] 200 3) = .next u ∧
    t.regs[0] = 88#8 ∧ u.regs[7] = 88#8 := ⟨_, _, rfl, rfl, by decide, by decide⟩

theorem witness_PushStoresBelowTheTop : (machine 0 [] 1 0x01).sp ≠ 0x00#8 ∧
    (machine 0 [] 1 0xFF).sp ≠ 0x00#8 ∧ pushAddress (machine 0 [] 1 0x01) = 0 ∧
    pushAddress (machine 0 [] 1 0xFF) = 254 := by decide

theorem witness_PopLoadsTheTop :
    memRead (popAddress (machine 0 [(0xFE, 0x77#8)] 0 0xFE)) (machine 0 [(0xFE, 0x77#8)] 0 0xFE) =
      .ok 0x77#8 ∧
    (machine 0 [(0xFE, 0x77#8)] 0 0xFE).sp ≠ 0xFF#8 ∧ 0x77#8 ≠ 0xFF#8 ∧
    memRead (popAddress (machine 0 [(0xFF, 0xFE#8)] 0 0xFF)) (machine 0 [(0xFF, 0xFE#8)] 0 0xFF) =
      .ok 0xFE#8 := by decide

theorem witness_CallPushesTheReturnAddress :
    (machine 253 [] 9 0x01).sp ≠ 0x00#8 ∧ (machine 253 [] 9 0x01).pc ≤ 253 ∧
    (after (exec (.call 0) (machine 253 [] 9 0x01))).map (fun t => (t.mem, t.pc)) =
      some ([(0, 0xFF#8)], 9) ∧
    (after (exec (.call 7) (machine 253 [] 9 0xFF))).map State.pc = some 0xFE := by decide

theorem witness_RetJumpsToTheTop :
    (machine 0 [(0xFE, 0xFF#8)] 0 0xFE).sp ≠ 0xFF#8 ∧
    (after (exec .ret (machine 0 [(0xFE, 0xFF#8)] 0 0xFE))).map State.pc = some 255 := by decide

theorem witness_PushThenPopIsStackNeutral :
    (∃ t, (0 ≠ 7 ∧ 6 ≠ 7) ∧ (machine 0 [] 9 0x01).sp ≠ 0x00#8 ∧
      exec (.push 0) (machine 0 [] 9 0x01) = .next t) ∧
    ∃ t, (machine 0 [] 9 0xFF).sp ≠ 0x00#8 ∧ exec (.push 7) (machine 0 [] 9 0xFF) = .next t :=
  ⟨⟨_, by decide, by decide, rfl⟩, _, by decide, rfl⟩

theorem witness_RetResumesAfterTheCall : ∃ t u : State,
    (machine 253 [] 9 0x01).sp ≠ 0x00#8 ∧ (machine 253 [] 9 0x01).pc ≤ 253 ∧
    exec (.call 0) (machine 253 [] 9 0x01) = .next t ∧ u.sp = t.sp ∧
    u.mem.read t.sp.toNat = t.mem.read t.sp.toNat ∧ u.regs ≠ t.regs :=
  ⟨_, machine 9 [(0, 0xFF#8)] 7 0x00, by decide, by decide, rfl, by decide, by decide, by decide⟩

/-- Program P7, its last two cycles; and the same at the last place it fits, pc 251. -/
theorem witness_StoredByteIsTheNextOpcode : ∃ t u,
    (machine 6 [(6, 0x45#8)] 0x01 0x09).run = .running ∧ 6 ≤ 251 ∧
    (machine 6 [(6, 0x45#8)] 0x01 0x09).sp ≠ 0x00#8 ∧
    pushAddress (machine 6 [(6, 0x45#8)] 0x01 0x09) = 6 + 2 ∧
    exec (.push 0) (machine 6 [(6, 0x45#8)] 0x01 0x09) = .next t ∧
    (machine 251 [(251, 0x45#8)] 0x00 0xFE).sp ≠ 0x00#8 ∧
    pushAddress (machine 251 [(251, 0x45#8)] 0x00 0xFE) = 251 + 2 ∧
    exec (.push 0) (machine 251 [(251, 0x45#8)] 0x00 0xFE) = .next u :=
  ⟨_, _, rfl, by decide, by decide, by decide, rfl, by decide, by decide, rfl⟩

theorem witness_StepRunsTheDecodedInstruction :
    let s := machine 253 [(253, 0x82#8), (254, 0x01#8), (255, 0x05#8)] 0 0xF3
    s.run = .running ∧ s.pc ≤ 253 ∧
    decode Config.opcodes [s.opcodeByte, s.operandA, s.operandB] = .ok (.ldi 1 5#8) := by decide

theorem witness_InstructionBytesAscendFromPc :
    let s := machine 253 [(253, 0x82#8), (254, 0x01#8), (255, 0x05#8)] 0 0xF3
    otherOpcodes.admissible ∧ Instr.wellFormed (.ldi 1 5#8) ∧ s.run = .running ∧ s.pc ≤ 253 ∧
    ∀ (k : Nat) (hk : k < (encode otherOpcodes (.ldi 1 5#8)).length),
      s.mem.read (s.pc + k) = (encode otherOpcodes (.ldi 1 5#8))[k] := by
  refine ⟨by decide, by decide, by decide, by decide, fun k hk => ?_⟩
  have : k = 0 ∨ k = 1 ∨ k = 2 := by simp [encode] at hk; omega
  rcases this with rfl | rfl | rfl <;> rfl

theorem witness_UnknownOpcodeIsALoggedNoOp :
    let s := machine 253 [(253, 0xFF#8)] 0 0xF4
    s.run = .running ∧ s.pc ≤ 253 ∧ s.opcodeByte ∉ knownOpcodes Config.opcodes ∧
    Config.opcodes.admissible ∧ (after (step s)).map State.pc = some 257 := by decide

theorem witness_FetchBeyondMemoryAborts :
    (machine 254 [] 0 0).run = .running ∧ 254 ≤ (machine 254 [] 0 0).pc ∧
    (after (step (machine 255 [] 0 0))).map State.run = some (.aborted ⟨.mem, 256, 255⟩) ∧
    (after (step (machine 256 [] 0 0))).map State.run =
      some (.aborted ⟨.mem, 256, 256⟩) := by decide

theorem witness_CyclesRunExactlyWhileRunning : State.reset.run = .running ∧
    (State.reset.withRun .halted).run = .halted ∧
    (abort ⟨.mem, 256, 0⟩ State.reset).run = .aborted ⟨.mem, 256, 0⟩ := by decide

theorem witness_PlacedWordIsTheNextInstruction :
    decodeTableWord 24 0xFFFF82 = some (.ldi 255 255#8) ∧
    (machine 253 [] 0 0).run = .running ∧ (machine 253 [] 0 0).pc ≤ 253 ∧
    (252 < (machine 253 [] 0 0).pc ∨ (machine 253 [] 0 0).pc + 2 < 252) ∧
    ((machine 254 [] 0 0).withFetchWord 8 0x01).pc = 0 := by decide

theorem witness_NextPcFollowsTheDecoder : Config.opcodes.admissible ∧
    (after (step (machine 253 [(253, 0x90#8)] 0 0xF4))).map (fun t => (t.run, t.pc)) =
      some (.running, 256) ∧
    setsPc 0x82#8 = false ∧ (after (step (machine 0 [(0, 0x82#8)] 0 0xF4))).map
      (fun t => (t.run, t.pc)) = some (.running, 3) ∧
    (after (step (machine 0 [(0, 0x50#8), (1, 0x07#8)] 0 0xF4))).map
      (fun t => (t.run, t.pc)) = some (.running, 0xF3) ∧
    (after (step (machine 0 [(0, 0x11#8), (0xF3, 0xFF#8)] 0 0xF3))).map
      (fun t => (t.run, t.pc)) = some (.running, 0xFF) := by decide

theorem witness_InstructionsAbortAsTabled :
    handlerCause (.pop 7) (machine 0 [(0xF4, 0xFF#8)] 0 0xF4) = some ⟨.mem, 256, 0⟩ ∧
    handlerCause (.pop 0) (machine 0 [(0xF4, 0xFF#8)] 0 0xF4) = none ∧
    handlerCause .hlt State.reset = none := by decide

theorem witness_CyclesAbortExactlyAsTabled :
    (after (step (machine 254 [] 0 0))).map State.run = some (.aborted ⟨.mem, 256, 254⟩) ∧
    cycleCause Config.opcodes (machine 254 [] 0 0) = some ⟨.mem, 256, 254⟩ ∧
    cycleCause Config.opcodes (machine 253 [] 0 0) = none := by decide

theorem witness_OnlyHltHalts : ∃ t, step (machine 253 [(253, 0x01#8)] 0 0) = .next t ∧
    t.run = .halted := ⟨_, rfl, by decide⟩

theorem witness_RegistersChangeOnlyAsListed :
    (after (step (machine 0 [(0, 0x46#8), (0xF4, 9#8)] 0 0xF4))).map
      (fun t => (t.run, t.regs[0], t.regs[7])) = some (.running, 9#8, 0xF5#8) ∧
    (machine 0 [(0, 0x46#8), (0xF4, 9#8)] 0 0xF4).regs[0] ≠ 9#8 ∧
    (machine 0 [(0, 0x46#8), (0xF4, 9#8)] 0 0xF4).regs[7] ≠ 0xF5#8 := by decide

theorem witness_OnlyPushAndCallStore :
    (∃ t, step (machine 2 [(2, 0x45#8)] 9 0x01) = .next t ∧
      t.mem.read 0 ≠ (machine 2 [(2, 0x45#8)] 9 0x01).mem.read 0) ∧
    ∃ t, step (machine 2 [(2, 0x50#8)] 9 0xFF) = .next t ∧
      t.mem.read 254 ≠ (machine 2 [(2, 0x50#8)] 9 0xFF).mem.read 254 :=
  ⟨⟨_, rfl, by decide⟩, _, rfl, by decide⟩

theorem witness_TopByteIsNeverWritten :
    ∃ t, step (machine 2 [(2, 0x45#8), (255, 3#8)] 9 0xFF) = .next t ∧ t.mem.read 254 = 9#8 ∧
      t.mem.read 255 = 3#8 := ⟨_, rfl, by decide, by decide⟩

theorem witness_OnlyPrnAppendsToOut :
    (∃ t, step (State.reset.withFetchWord 16 0x0747) = .next t ∧
      t.out = (State.reset.withFetchWord 16 0x0747).out ++ [0x32#8, 0x34#8, 0x34#8, 0x0A#8]) ∧
    (State.reset.withRun .halted).run ≠ .running ∧
    (abort ⟨.mem, 256, 0⟩ State.reset).run ≠ .running :=
  ⟨⟨_, rfl, by decide⟩, by decide, by decide⟩

theorem witness_OnlyUnknownOpcodesWarn : ∃ t, step State.reset = .next t ∧
    t.warn = State.reset.warn ++ [⟨0, 0x00#8⟩] := ⟨_, rfl, by decide⟩

theorem reset_inv (ops : Opcodes) (v : ResetValues) : (State.resetWith v).Inv ops where
  memory_canonical := Memory.wf_nil
  pc_bounded       := Nat.zero_le _
  out_printed      := ⟨[], rfl⟩
  warnings_unknown := by simp [State.resetWith]
  record_legal     := by simp [State.resetWith]

theorem witness_EveryCycleKeepsTheInvariant :
    State.reset.Inv Config.opcodes ∧ ∃ t, step State.reset = .next t :=
  ⟨reset_inv _ _, _, rfl⟩

/-- Vectors V1, V21, V22 and V3; POP R7 at 255 by rule R122; and the last stack pointers that do not
fault. -/
theorem witness_StackPointerRangeIsEnforced :
    (machine 0 [] 1 0x00).sp = 0x00#8 ∧ (machine 0 [] 1 0xFF).sp = 0xFF#8 ∧
    (after (exec (.pop 0) (machine 0 [] 1 0xFF))).map State.run =
      some (.aborted ⟨.mem, 256, 0⟩) ∧
    (machine 0 [(255, 0xFF#8)] 1 0xFF).mem.read 255 = 0xFF#8 ∧
    (after (exec (.pop 7) (machine 0 [(255, 0xFF#8)] 1 0xFF))).map State.run =
      some (.aborted ⟨.mem, 256, 0⟩) ∧
    (after (exec (.pop 7) (machine 0 [(255, 0xFE#8)] 1 0xFF))).map
      (fun t => (t.run, t.sp, t.pc)) = some (.running, 0xFF#8, 2) ∧
    (machine 0 [] 1 0x01).sp ≠ 0x00#8 ∧ (machine 0 [] 1 0xFF).sp ≠ 0x00#8 ∧
    (after (exec (.pop 0) (machine 0 [] 1 0xFE))).map State.pc = some 2 := by decide

theorem witness_RunStartsAsLoaded : 6 < 7 ∧ (List.replicate 256 1#8).length ≤ 256 ∧
    0 < (List.replicate 256 1#8).length ∧ ([] : List Byte).length ≤ 256 := by
  rw [List.length_replicate]; decide

theorem witness_BadProgramsRunNoCycle : 256 < (List.replicate 257 1#8).length := by
  rw [List.length_replicate]; omega

theorem witness_ExitStatusTellsHowTheRunEnded : (⟨1, 2⟩ : ExitCodes).admissible := by decide

theorem witness_RunningOffTheEndWarnsThenAborts :
    Config.opcodes.admissible ∧ (machine 253 [(252, 1#8)] 0 0).run = .running ∧
    (machine 253 [(252, 1#8)] 0 0).pc ≤ 253 ∧
    ∀ a, (machine 253 [(252, 1#8)] 0 0).pc ≤ a → a ≤ 255 →
      (machine 253 [(252, 1#8)] 0 0).mem.read a = 0x00#8 := by
  refine ⟨by decide, rfl, by decide, fun a ha hb => ?_⟩
  have ha : 253 ≤ a := ha
  obtain rfl | rfl | rfl : a = 253 ∨ a = 254 ∨ a = 255 := by omega
  all_goals decide

end Sys2Proof.Tests
end

/-! PROOF. The bounds-checked memory of 20_memory.md: reads (rule R40), writes (rule R41), and the
bytes of an instruction at ascending addresses from pc (rule R43). -/

namespace Sys2Proof

/-! ## From an encoding at the front of a window to its decoding -/

theorem toNat_of_fitsOperandByte {r : Nat} (h : fitsOperandByte r) :
    (BitVec.ofNat 8 r).toNat = r := by
  simpa [fitsOperandByte] using h

theorem encode_length_le (ops : Opcodes) (i : Instr) : (encode ops i).length ≤ 3 := by
  cases i <;> simp [encode]

/-- A window that begins with the encoding of a well-formed instruction is one that a handler turns
into that instruction, whatever the bytes after the encoding: the converse of `encode_instr`. -/
theorem exists_handler_of_encode_prefix {ops : Opcodes} {i : Instr} {o a b : Byte}
    (hi : i.wellFormed) (h : encode ops i <+: [o, a, b]) :
    ∃ k : Handler, k.opcode ops = o ∧ k.instr a b = i := by
  cases i with
  | ldi r v =>
    obtain ⟨rfl, rfl, rfl⟩ : Handler.ldi.opcode ops = o ∧ _ = a ∧ v = b := by
      simpa [encode] using h
    exact ⟨.ldi, rfl, by rw [Handler.instr, toNat_of_fitsOperandByte hi]⟩
  | prn r =>
    obtain ⟨rfl, rfl⟩ : Handler.prn.opcode ops = o ∧ _ = a := by simpa [encode] using h
    exact ⟨.prn, rfl, by rw [Handler.instr, toNat_of_fitsOperandByte hi]⟩
  | mul x y =>
    obtain ⟨rfl, rfl, rfl⟩ : Handler.mul.opcode ops = o ∧ _ = a ∧ _ = b := by
      simpa [encode] using h
    obtain ⟨hx, hy⟩ : fitsOperandByte x ∧ fitsOperandByte y := by
      simpa [Instr.wellFormed] using hi
    exact ⟨.mul, rfl, by rw [Handler.instr, toNat_of_fitsOperandByte hx,
      toNat_of_fitsOperandByte hy]⟩
  | push r =>
    obtain ⟨rfl, rfl⟩ : Handler.push.opcode ops = o ∧ _ = a := by simpa [encode] using h
    exact ⟨.push, rfl, by rw [Handler.instr, toNat_of_fitsOperandByte hi]⟩
  | pop r =>
    obtain ⟨rfl, rfl⟩ : Handler.pop.opcode ops = o ∧ _ = a := by simpa [encode] using h
    exact ⟨.pop, rfl, by rw [Handler.instr, toNat_of_fitsOperandByte hi]⟩
  | call r =>
    obtain ⟨rfl, rfl⟩ : Handler.call.opcode ops = o ∧ _ = a := by simpa [encode] using h
    exact ⟨.call, rfl, by rw [Handler.instr, toNat_of_fitsOperandByte hi]⟩
  | ret => exact ⟨.ret, by simpa [encode] using h, rfl⟩
  | hlt => exact ⟨.hlt, by simpa [encode] using h, rfl⟩

theorem decodeWindow_of_encode_prefix {ops : Opcodes} (ha : ops.admissible) {i : Instr}
    {o a b : Byte} (hi : i.wellFormed) (h : encode ops i <+: [o, a, b]) :
    decodeWindow ops o a b = some i := by
  obtain ⟨k, hk, hki⟩ := exists_handler_of_encode_prefix hi h
  exact decodeWindow_eq_some.mpr ⟨k, (select_eq_some ha).mpr hk, hki⟩

namespace Machine

/-! ## The bounds check of an integer address -/

theorem inMemory_iff {a : Int} : inMemory a ↔ 0 ≤ a ∧ a ≤ 255 := by
  simp only [inMemory, Config.memSize]; omega

theorem not_inMemory_iff {a : Int} : ¬ inMemory a ↔ a < 0 ∨ 255 < a := by
  rw [inMemory_iff]; omega

theorem memRead_of_mem {a : Int} (h : inMemory a) (s : State) :
    memRead a s = .ok (s.mem.read a.toNat) := if_pos h

theorem memRead_of_not_mem {a : Int} (h : ¬ inMemory a) (s : State) :
    memRead a s = .error ⟨.mem, a, s.pc⟩ := if_neg h

theorem memWrite_of_mem {a : Int} (h : inMemory a) (v : Byte) (s : State) :
    memWrite a v s = .ok (s.withMem (s.mem.write a.toNat v)) := if_pos h

theorem memWrite_of_not_mem {a : Int} (h : ¬ inMemory a) (v : Byte) (s : State) :
    memWrite a v s = .error ⟨.mem, a, s.pc⟩ := if_neg h

/-- A write leaves the read of every other integer address as it was, the ones outside memory
included: those raise, in both states with the same pc. -/
theorem memRead_write_ne {a b : Int} (ha : inMemory a) (hne : b ≠ a) (v : Byte) (s : State) :
    memRead b (s.withMem (s.mem.write a.toNat v)) = memRead b s := by
  by_cases hb : inMemory b
  · have hcell : b.toNat ≠ a.toNat := fun e => hne <| by
      rw [← Int.toNat_of_nonneg hb.1, e, Int.toNat_of_nonneg ha.1]
    rw [memRead_of_mem hb, memRead_of_mem hb, State.withMem_mem, Memory.read_write_ne _ v hcell]
  · rw [memRead_of_not_mem hb, memRead_of_not_mem hb, State.withMem_pc]

/-! ## The cycle of a window whose instruction is known -/

theorem stepWith_of_decodeWindow {ops : Opcodes} {s : State} {i : Instr} (hr : s.run = .running)
    (hpc : s.pc ≤ 253) (hd : decodeWindow ops s.opcodeByte s.operandA s.operandB = some i) :
    stepWith ops s = exec i s := by
  simp only [stepWith_running ops hr, fetchCause_eq_none.mpr hpc, dispatch, hd]

/-- Bytes that lie at ascending addresses from pc are the front of the fetch window. -/
theorem window_front_of_read {s : State} {bytes : List Byte} (hlen : bytes.length ≤ 3)
    (h : ∀ (k : Nat) (hk : k < bytes.length), s.mem.read (s.pc + k) = bytes[k]) :
    bytes <+: [s.opcodeByte, s.operandA, s.operandB] := by
  refine List.prefix_iff_getElem.mpr ⟨hlen, fun k hk => ?_⟩
  rw [← h k hk]
  match k, Nat.lt_of_lt_of_le hk hlen with
  | 0, _ | 1, _ | 2, _ => rfl

/-! ## The obligations -/

/-- Settles O9: the write's closed form, then reads of the written memory (rule R41). -/
theorem memWriteChangesOneByte : Obligations.MemWriteChangesOneByte := by
  refine fun a v s => ⟨fun h => ?_, fun h => memWrite_of_not_mem (not_inMemory_iff.mpr h) v s⟩
  have ha : inMemory a := inMemory_iff.mpr h
  refine ⟨_, memWrite_of_mem ha v s, ?_, fun b hb => memRead_write_ne ha hb v s,
    rfl, rfl, rfl, rfl, rfl⟩
  rw [memRead_of_mem ha, State.withMem_mem, Memory.read_write_same]

/-- Settles O25: the encoding is the front of the fetch window, so the window decodes to the
instruction (rule R43). -/
theorem instructionBytesAscendFromPc : Obligations.InstructionBytesAscendFromPc := by
  refine ⟨fun ops s i ha hi hr hpc hbytes => ?_, fun _ => rfl⟩
  have hwindow := window_front_of_read (encode_length_le ops i) hbytes
  exact stepWith_of_decodeWindow hr hpc (decodeWindow_of_encode_prefix ha hi hwindow)

/-- Settles O8: the two branches of the bounds check (rule R40). -/
theorem memReadIsBoundsChecked : Obligations.MemReadIsBoundsChecked := fun _ s =>
  ⟨fun h => memRead_of_mem (inMemory_iff.mpr h) s,
    fun h => memRead_of_not_mem (not_inMemory_iff.mpr h) s⟩

end Machine
end Sys2Proof

/-! PROOF. The Decoder of 40_fetch_decode_dispatch.md: its two outputs are bits 7:6 and bit 4 of the
opcode byte (rule R80), with the source's values for three bytes (rule R82). -/

namespace Sys2Proof

/-! ## The Decoder's outputs as bit fields of the opcode byte -/

theorem operandCount_eq_extractLsb' (o : Byte) : operandCount o = (o.extractLsb' 6 2).toNat :=
  (Laws.Shape.decoder_of_fields rfl).1

theorem setsPc_eq_getLsbD (o : Byte) : setsPc o = o.getLsbD 4 :=
  (Laws.Shape.decoder_of_fields rfl).2

theorem setsPc_iff (o : Byte) : setsPc o = true ↔ o.toNat / 16 % 2 = 1 := by
  rw [setsPc_eq_getLsbD, BitVec.getLsbD, Nat.testBit_eq_decide_div_mod_eq, decide_eq_true_iff]

/-! ## The obligation -/

/-- Settles O2: each output is a function of its bit field, so bytes with equal fields have equal
outputs (rule R80); the three values are evaluated (rule R82). -/
theorem decoderExtractsCountAndSetsPc : Obligations.DecoderExtractsCountAndSetsPc := by
  refine ⟨fun o => ⟨operandCount_eq o, setsPc_iff o⟩, fun o o' hcount hpc => ⟨?_, ?_⟩, ?_⟩
  · rw [operandCount_eq_extractLsb', operandCount_eq_extractLsb', hcount]
  · rw [setsPc_eq_getLsbD, setsPc_eq_getLsbD, hpc]
  · decide

end Sys2Proof

/-! PROOF. LOAD-IMMEDIATE (41_ldi_prn.md rule R100), and that the line PRINT-REGISTER emits spells
its value in decimal (rule R101). -/

namespace Sys2Proof

/-- LOAD-IMMEDIATE is the first handler of the multiplexer and its byte is none of the open ones, so
no constraint on these is needed. -/
theorem select_ldi (ops : Opcodes) : select ops 0x82#8 = some .ldi := rfl

theorem decode_ldi (ops : Opcodes) (a b : Byte) (rest : List Byte) :
    decode ops (0x82#8 :: a :: b :: rest) = .ok (.ldi a.toNat b) := by
  simp only [decode, decodeWindow, select_ldi, Option.map_some, Handler.instr]

namespace Machine

/-! ## The decimal spelling -/

theorem isDigit_digit {n : Nat} (h : n < 10) : isDigit (digit n) := by
  rw [isDigit, digit_toNat h]; omega

/-- What the decimal spelling of a byte can be: one, two or three digits of its value. -/
theorem decimal_cases (v : Byte) :
    (v.toNat < 10 ∧ decimal v = [digit v.toNat]) ∨
    (v.toNat < 100 ∧ decimal v = [digit (v.toNat / 10), digit (v.toNat % 10)]) ∨
    (v.toNat < 256 ∧ decimal v =
      [digit (v.toNat / 100), digit (v.toNat / 10 % 10), digit (v.toNat % 10)]) := by
  by_cases h10 : v.toNat < 10
  · exact .inl ⟨h10, if_pos h10⟩
  by_cases h100 : v.toNat < 100
  · exact .inr (.inl ⟨h100, (if_neg h10).trans (if_pos h100)⟩)
  · exact .inr (.inr ⟨v.isLt, (if_neg h10).trans (if_neg h100)⟩)

theorem decimal_ne_nil (v : Byte) : decimal v ≠ [] := by
  obtain ⟨-, hd⟩ | ⟨-, hd⟩ | ⟨-, hd⟩ := decimal_cases v <;> rw [hd] <;> exact List.cons_ne_nil _ _

theorem isDigit_of_mem_decimal (v : Byte) : ∀ d ∈ decimal v, isDigit d := by
  obtain ⟨hv, hd⟩ | ⟨hv, hd⟩ | ⟨hv, hd⟩ := decimal_cases v <;>
    simp only [hd, List.mem_cons, List.not_mem_nil, or_false, forall_eq_or_imp, forall_eq]
  · exact isDigit_digit hv
  · exact ⟨isDigit_digit (by omega), isDigit_digit (by omega)⟩
  · exact ⟨isDigit_digit (by omega), isDigit_digit (by omega), isDigit_digit (by omega)⟩

theorem decimalValue_decimal (v : Byte) : decimalValue (decimal v) = v.toNat := by
  obtain ⟨hv, hd⟩ | ⟨hv, hd⟩ | ⟨hv, hd⟩ := decimal_cases v <;>
    simp only [hd, decimalValue, List.foldl_cons, List.foldl_nil]
  · rw [digit_toNat hv]; omega
  · rw [digit_toNat (by omega), digit_toNat (by omega)]; omega
  · rw [digit_toNat (by omega), digit_toNat (by omega), digit_toNat (by omega)]; omega

/-- The byte 0x0A that ends the line is no digit, so the line spells no longer number. -/
theorem spellsNumber_printedLine (v : Byte) : spellsNumber (printedLine v) v.toNat :=
  ⟨decimal v, 0x0A#8, [], rfl, decimal_ne_nil v, isDigit_of_mem_decimal v, by decide,
    decimalValue_decimal v⟩

/-! ## LOAD-IMMEDIATE after any other write of its register -/

theorem execLdi_set {r : Nat} (hr : r < 8) (v old : Byte) (s : State) :
    execLdi r v (s.withRegs (s.regs.set r old)) = execLdi r v s := by
  rw [execLdi_ok hr, execLdi_ok hr, State.withRegs_regs, Vector.set_set]; rfl

/-! ## The obligation -/

/-- Settles O11: the closed forms of LOAD-IMMEDIATE and PRINT-REGISTER, read field by field
(rule R100). -/
theorem ldiLoadsItsRegister : Obligations.LdiLoadsItsRegister := by
  refine ⟨decode_ldi, by decide, fun r hr v s => ?_, fun r v s hr => ?_⟩
  · have hload := execLdi_ok hr v s
    have hread : (s.regs.set r v)[r] = v := Vector.getElem_set_self hr
    have hother (j : Nat) (hj : j < 8) (hne : j ≠ r) : (s.regs.set r v)[j] = s.regs[j] :=
      Vector.getElem_set_ne hr hj hne.symm
    have hpush (h7 : r = 7) :
        pushAddress ((s.withRegs (s.regs.set r v)).withPc (s.pc + 3)) = (v.toNat : Int) - 1 := by
      subst h7; rw [pushAddress, State.withPc_sp, State.withRegs_sp, hread]
    refine ⟨_, hload, hread, hother, fun _ => rfl, rfl, rfl, rfl, rfl,
      fun old => (execLdi_set hr v old s).trans hload, hpush,
      _, printedLine v, execPrn_ok hr _, ?_, spellsNumber_printedLine v⟩
    simp only [State.withPc_out, State.emit_out, State.withRegs_out, State.withPc_regs,
      State.withRegs_regs, hread]
  · exact ⟨_, execLdi_badReg hr v s, rfl, rfl, rfl⟩

end Machine
end Sys2Proof

/-! PROOF. The start of a run (70_reset_and_hazards.md): the register values at reset and the image
the loader places from address 0 (rules R180 and R181). -/

namespace Sys2Proof.Machine

/-! ## The registers at reset -/

theorem resetWith_general (v : ResetValues) (j : Nat) (hj : j < 7) :
    (State.resetWith v).regs[j]'(Nat.lt_succ_of_lt hj) = v.general[j] :=
  Vector.getElem_push_lt hj

theorem resetWith_sp (v : ResetValues) : (State.resetWith v).sp = v.sp :=
  Vector.getElem_push_eq

/-! ## The load of an image that fits -/

/-- The load replaces memory only: the bytes of the image from address 0, and every byte above them
as before. -/
theorem load_of_fits {image : List Byte} (h : image.length ≤ 256) (s : State) :
    ∃ m : Memory, load image s = s.withMem m ∧
      (∀ (j : Nat) (hj : j < image.length), m.read j = image[j]) ∧
      ∀ j, image.length ≤ j → m.read j = s.mem.read j := by
  obtain ⟨m, hload, -, hread⟩ := loadFrom_ok image Config.origin s (by simpa using h)
  refine ⟨m, by rw [load, hload], fun j hj => ?_, fun j hj => ?_⟩
  · simp [hread, hj]
  · rw [hread, dif_neg (by simpa using hj)]

/-! ## The obligation -/

/-- Settles O41: the run starts as the load leaves the reset state, which is the reset state with
memory replaced, and the first cycle fetches at pc = 0 (rule R180). -/
theorem runStartsAsLoaded : Obligations.RunStartsAsLoaded := by
  refine fun v => ⟨Memory.read_nil, resetWith_general v, resetWith_sp v, rfl, rfl, rfl, rfl,
    fun image hfits => ?_⟩
  obtain ⟨m, hload, hplaced, habove⟩ := load_of_fits hfits (State.resetWith v)
  exact ⟨_, congrArg Start.core hload, hplaced, habove, rfl, rfl, rfl, rfl, rfl, hplaced 0⟩

end Sys2Proof.Machine

/-! PROOF. Encoder, Decoder and multiplexer against each other (30_encoding.md,
40_fetch_decode_dispatch.md rules R69, R83 to R85, R87 and R89): decode and encode are inverse, the
multiplexer selects eight bytes, and how an instruction changes pc is in its opcode byte. -/

namespace Sys2Proof

/-! ## The handler of an instruction -/

/-- The handler an instruction runs, whose byte begins its encoding (rule R83). -/
def Instr.handler : Instr → Handler
  | .ldi _ _ => .ldi
  | .prn _   => .prn
  | .mul _ _ => .mul
  | .push _  => .push
  | .pop _   => .pop
  | .call _  => .call
  | .ret     => .ret
  | .hlt     => .hlt

@[simp] theorem Handler.handler_instr (a b : Byte) (h : Handler) : (h.instr a b).handler = h := by
  cases h <;> rfl

/-- The encoding begins with the byte of the instruction's handler. -/
theorem encode_head {ops : Opcodes} {i : Instr} {o : Byte} {rest : List Byte}
    (h : encode ops i = o :: rest) : i.handler.opcode ops = o := by
  cases i <;> exact (List.cons.inj h).1

/-- What a decoded window says of its bytes: the opcode is the instruction's handler's, and the
instruction is that handler's on the two operand bytes. -/
theorem decodeWindow_handler {ops : Opcodes} {o a b : Byte} {i : Instr}
    (h : decodeWindow ops o a b = some i) :
    i.handler.opcode ops = o ∧ i.handler.instr a b = i := by
  obtain ⟨k, hk, rfl⟩ := decodeWindow_eq_some.mp h
  rw [Handler.handler_instr]
  exact ⟨opcode_of_select hk, rfl⟩

theorem opcode_mem_knownOpcodes (ops : Opcodes) (h : Handler) :
    h.opcode ops ∈ knownOpcodes ops := List.mem_map_of_mem h.mem_all

theorem zero_not_mem_knownOpcodes {ops : Opcodes} (ha : ops.admissible) :
    0x00#8 ∉ knownOpcodes ops := by
  simp only [knownOpcodes, List.mem_map, not_exists, not_and]
  intro h _ hzero
  have hfields := opcode_fields ha h
  rw [hzero] at hfields
  cases h with
  | hlt => exact absurd hzero (show ¬ 0b00000001#8 = 0x00#8 by decide)
  | _ => exact absurd hfields (by decide)

/-! ## Decoding a byte sequence -/

theorem decode_cons (ops : Opcodes) (o a b : Byte) (rest : List Byte) :
    decode ops (o :: a :: b :: rest) =
      (decodeWindow ops o a b).elim (.error (.unknownOpcode o)) .ok := by
  simp only [decode]
  cases decodeWindow ops o a b <;> rfl

theorem decode_cons_eq_ok {ops : Opcodes} {o a b : Byte} {rest : List Byte} {i : Instr} :
    decode ops (o :: a :: b :: rest) = .ok i ↔ decodeWindow ops o a b = some i := by
  rw [decode_cons]
  cases decodeWindow ops o a b <;> simp

theorem decode_cons_eq_unknownOpcode {ops : Opcodes} {o a b o' : Byte} {rest : List Byte} :
    decode ops (o :: a :: b :: rest) = .error (.unknownOpcode o') ↔
      o = o' ∧ o ∉ knownOpcodes ops := by
  rw [decode_cons, ← decodeWindow_eq_none (a := a) (b := b)]
  cases decodeWindow ops o a b <;> simp

theorem decode_cons_ne_shortWindow (ops : Opcodes) (o a b : Byte) (rest : List Byte) (n : Nat) :
    decode ops (o :: a :: b :: rest) ≠ .error (.shortWindow n) := by
  rw [decode_cons]
  cases decodeWindow ops o a b <;> exact nofun

theorem decode_short (ops : Opcodes) {bytes : List Byte} (h : bytes.length < 3) :
    decode ops bytes = .error (.shortWindow bytes.length) := by
  match bytes, h with
  | [], _ | [_], _ | [_, _], _ => rfl

/-- A byte sequence is short, or a fetch window and what follows it. -/
theorem short_or_window (bytes : List Byte) :
    bytes.length < 3 ∨ ∃ o a b rest, bytes = o :: a :: b :: rest := by
  match bytes with
  | [] | [_] | [_, _] => exact .inl (by simp)
  | o :: a :: b :: rest => exact .inr ⟨o, a, b, rest, rfl⟩

/-! ## The obligations on decode and encode -/

/-- Settles O5: the bytes are a fetch window that begins with the encoding, and such a window
decodes to the instruction. -/
theorem decodeInvertsEncode : Obligations.DecodeInvertsEncode := by
  intro ops i rest ha hi hlen
  obtain hshort | ⟨o, a, b, tail, hbytes⟩ := short_or_window (encode ops i ++ rest)
  · omega
  · have hfront : encode ops i <+: [o, a, b] :=
      List.prefix_of_prefix_length_le ⟨rest, hbytes⟩ (List.prefix_append [o, a, b] tail)
        (encode_length_le ops i)
    rw [hbytes, decode_cons_eq_ok, decodeWindow_of_encode_prefix ha hi hfront]

/-- Settles O6: only a fetch window decodes, and what it decodes to is a handler's instruction on
its operand bytes. -/
theorem encodeInvertsDecode : Obligations.EncodeInvertsDecode := by
  intro ops bytes i hd
  obtain hshort | ⟨o, a, b, rest, rfl⟩ := short_or_window bytes
  · rw [decode_short ops hshort] at hd; cases hd
  · obtain ⟨k, hk, rfl⟩ := decodeWindow_eq_some.mp (decode_cons_eq_ok.mp hd)
    have hencode := encode_instr ops a b k
    rw [opcode_of_select hk] at hencode
    exact ⟨wellFormed_instr a b k, hencode.trans (List.prefix_append [o, a, b] rest), by simp⟩

/-- Settles O7: a sequence is short or a fetch window, and a window is rejected exactly when the
multiplexer selects nothing. -/
theorem decodeRejectsByName : Obligations.DecodeRejectsByName := by
  intro ops bytes
  obtain hshort | ⟨o, a, b, rest, rfl⟩ := short_or_window bytes
  · rw [decode_short ops hshort]
    refine ⟨fun o => ⟨nofun, ?_⟩, fun n => ?_⟩
    · rintro ⟨a, b, rest, rfl, -⟩
      simp at hshort; omega
    · rw [Except.error.injEq, DecodeError.shortWindow.injEq]
      exact ⟨fun h => ⟨h, h ▸ hshort⟩, And.left⟩
  · refine ⟨fun o' => decode_cons_eq_unknownOpcode.trans ⟨?_, ?_⟩, fun n => iff_of_false
      (decode_cons_ne_shortWindow ops o a b rest n) fun h => by simp at h; omega⟩
    · rintro ⟨rfl, hunknown⟩
      exact ⟨a, b, rest, rfl, hunknown⟩
    · rintro ⟨_, _, _, hbytes, hunknown⟩
      obtain rfl := (List.cons.inj hbytes).1
      exact ⟨rfl, hunknown⟩

/-- Settles O1: the table's words, evaluated. -/
theorem tableWordsDecodeAsWritten : Obligations.TableWordsDecodeAsWritten := by
  unfold Obligations.TableWordsDecodeAsWritten
  decide

/-! ## The multiplexer -/

theorem Handler.all_nodup : Handler.all.Nodup := by decide

theorem knownOpcodes_nodup {ops : Opcodes} (ha : ops.admissible) : (knownOpcodes ops).Nodup :=
  Handler.all_nodup.map fun _ _ => opcode_injective ha

/-- The bytes that select a handler, as numbers: the eight opcodes in some order. -/
theorem filter_known_perm {ops : Opcodes} (ha : ops.admissible) :
    ((List.range 256).filter fun n => !(select ops (BitVec.ofNat 8 n)).isNone).Perm
      ((knownOpcodes ops).map BitVec.toNat) := by
  refine (List.perm_ext_iff_of_nodup (List.nodup_range.filter _)
    ((knownOpcodes_nodup ha).map fun _ _ => BitVec.eq_of_toNat_eq)).mpr fun n => ?_
  simp only [List.mem_filter, List.mem_range, List.mem_map, Bool.not_eq_true',
    Option.isNone_eq_false_iff, Option.isSome_iff_ne_none, ne_eq, select_eq_none, not_not]
  constructor
  · exact fun ⟨hn, hknown⟩ => ⟨_, hknown, by rw [BitVec.toNat_ofNat, Nat.mod_eq_of_lt hn]⟩
  · rintro ⟨o, hknown, rfl⟩
    exact ⟨o.isLt, by rwa [BitVec.ofNat_toNat, BitVec.setWidth_eq]⟩

/-- Settles O4: the eight bytes differ, so the rest of the 256 are 248. -/
theorem multiplexerSelectsEightBytes : Obligations.MultiplexerSelectsEightBytes := by
  intro ops ha
  refine ⟨fun o h => (select_eq_some ha).trans eq_comm, ?_⟩
  have hsplit := List.length_eq_length_filter_add (l := List.range 256)
    fun n => (select ops (BitVec.ofNat 8 n)).isNone
  have hknown := (filter_known_perm ha).length_eq
  simp only [List.length_map, knownOpcodes] at hknown
  rw [List.length_range, hknown, show Handler.all.length = 8 from rfl] at hsplit
  omega

namespace Machine

/-! ## How a completed instruction changes pc -/

/-- The fields of an encoding's first byte, for every instruction (rule R84). -/
theorem encoding_shape (i : Instr) : Laws.Shape.Statement i := by
  cases i with
  | ldi r v => exact Laws.Shape.ldi r v
  | prn r   => exact Laws.Shape.prn r
  | mul a b => exact Laws.Shape.mul a b
  | push r  => exact Laws.Shape.push r
  | pop r   => exact Laws.Shape.pop r
  | call r  => exact Laws.Shape.call r
  | ret     => exact Laws.Shape.ret
  | hlt     => exact Laws.Shape.hlt

/-- An instruction other than CALL and RETURN leaves pc past its own bytes (rule R89). -/
theorem completed_pc_advance (ops : Opcodes) {i : Instr} (hcall : ∀ r, i ≠ .call r)
    (hret : i ≠ .ret) (s : State) : (completed i s).pc = s.pc + (encode ops i).length := by
  rw [completed_pc]
  cases i with
  | call r => exact absurd rfl (hcall r)
  | ret => exact absurd rfl hret
  | _ => rfl

/-- The same, read off the opcode byte: where "sets PC" is clear, pc advances by one and the
operand count (rule R89). -/
theorem completed_pc_of_not_setsPc {ops : Opcodes} (ha : ops.admissible) (i : Instr)
    (hclear : setsPc (i.handler.opcode ops) = false) (s : State) :
    (completed i s).pc = s.pc + 1 + operandCount (i.handler.opcode ops) := by
  obtain ⟨o, rest, hencode, hcount, hsets⟩ := encoding_shape i ops ha
  rw [encode_head hencode] at hclear ⊢
  have hnojump : ¬ ((∃ r, i = .call r) ∨ i = .ret) := fun h => by simp [hsets.mpr h] at hclear
  rw [completed_pc_advance ops (fun r hr => hnojump (.inl ⟨r, hr⟩)) (fun hr => hnojump (.inr hr)),
    hencode, List.length_cons, hcount]
  omega

/-- CALL jumps to its register as it is after the push (44_call_ret.md rule R132). -/
theorem completed_call_pc {r : Nat} (hr : r < 8) (s : State) :
    (completed (.call r) s).pc = ((completed (.call r) s).regs[r]).toNat := by
  rw [completed_pc, completed_regs]
  simp only [regAt_of_lt hr, eq_comm]

/-! ## Register operands of an instruction that raises nothing -/

theorem registerCause_eq_none {r : Nat} {s : State} : registerCause r s = none ↔ r < 8 := by
  unfold registerCause
  split <;> simp <;> omega

theorem pushCause_eq_none {s : State} : pushCause s = none ↔ s.sp ≠ 0#8 := by
  unfold pushCause
  split <;> simp_all

theorem call_operand_of_no_cause {r : Nat} {s : State} (h : handlerCause (.call r) s = none) :
    r < 8 := registerCause_eq_none.mp (Option.or_eq_none_iff.mp h).2

theorem exec_of_no_cause {i : Instr} {s : State} (h : handlerCause i s = none) :
    exec i s = .next (completed i s) := by rw [exec_eq, h]

theorem exec_of_cause {i : Instr} {s : State} {info : OutOfBounds}
    (h : handlerCause i s = some info) : exec i s = .next (abort info s) := by rw [exec_eq, h]

/-- Settles O3: the encoding's first byte tells how pc changes, and a completed instruction changes
it that way (rules R84, R85 and R89). -/
theorem handlersAgreeWithTheirEncoding : Obligations.HandlersAgreeWithTheirEncoding := by
  refine ⟨by decide, fun ops i ha => ?_⟩
  obtain ⟨o, rest, hencode, hcount, hsets⟩ := encoding_shape i ops ha
  refine ⟨o, rest, hencode, hcount, hsets, fun s hcause => ⟨_, exec_of_no_cause hcause, ?_, ?_⟩⟩
  · obtain rfl := encode_head hencode
    exact fun hclear => completed_pc_of_not_setsPc ha i hclear s
  · intro hset
    obtain ⟨r, rfl⟩ | rfl := hsets.mp hset
    · have hr := call_operand_of_no_cause hcause
      exact .inl ⟨r, hr, rfl, completed_call_pc hr s⟩
    · exact .inr ⟨rfl, rfl⟩

end Machine
end Sys2Proof

/-! PROOF. One cycle (40_fetch_decode_dispatch.md rules R86 to R93): which way it goes, where it
leaves pc, and the table of causes of 60_exceptions.md rule R153. -/

namespace Sys2Proof.Machine

/-! ## The cycle in closed form, one lemma per way of `stepWith_cases` -/

/-- The state a cycle leaves whose opcode byte has no handler (45_hlt_unknown.md rule R141). -/
def steppedOver (s : State) : State :=
  (s.logWarning ⟨s.pc, s.opcodeByte⟩).withPc (s.pc + 1 + operandCount s.opcodeByte)

theorem decodeWindow_of_unknown {ops : Opcodes} {s : State} (h : s.opcodeByte ∉ knownOpcodes ops) :
    decodeWindow ops s.opcodeByte s.operandA s.operandB = none := decodeWindow_eq_none.mpr h

theorem stepWith_of_unknown {ops : Opcodes} {s : State} (hr : s.run = .running) (hpc : s.pc ≤ 253)
    (h : s.opcodeByte ∉ knownOpcodes ops) : stepWith ops s = .next (steppedOver s) := by
  simp only [stepWith_running ops hr, fetchCause_eq_none.mpr hpc, dispatch,
    decodeWindow_of_unknown h, stepOverUnknown_ok, steppedOver]

theorem stepWith_of_completed {ops : Opcodes} {s : State} {i : Instr} (hr : s.run = .running)
    (hpc : s.pc ≤ 253) (hd : decodeWindow ops s.opcodeByte s.operandA s.operandB = some i)
    (hc : handlerCause i s = none) : stepWith ops s = .next (completed i s) :=
  (stepWith_of_decodeWindow hr hpc hd).trans (exec_of_no_cause hc)

theorem stepWith_of_cause {ops : Opcodes} {s : State} {info : OutOfBounds} (hr : s.run = .running)
    (h : cycleCause ops s = some info) : stepWith ops s = .next (abort info s) := by
  obtain ⟨t, ht⟩ := stepWith_next ops hr
  obtain ⟨-, ⟨info', h', rfl⟩ | ⟨-, hnone, -⟩ | ⟨-, hnone, -⟩⟩ := stepWith_cases ht
  · obtain rfl : info' = info := Option.some.inj (h'.symm.trans h)
    exact ht
  · exact absurd (hnone.symm.trans h) nofun
  · exact absurd (hnone.symm.trans h) nofun

theorem stepWith_halted (ops : Opcodes) {s : State} (hr : s.run = .halted) :
    stepWith ops s = .fault .halted := by simp only [stepWith, hr]

theorem stepWith_aborted (ops : Opcodes) {s : State} {info : OutOfBounds}
    (hr : s.run = .aborted info) : stepWith ops s = .fault (.aborted info) := by
  simp only [stepWith, hr]

/-- The record of a fetch that begins too high to read three bytes (rule R87). -/
theorem cycleCause_of_fetch (ops : Opcodes) {s : State} (h : 254 ≤ s.pc) :
    cycleCause ops s = some ⟨.mem, if s.pc ≤ 255 then 256 else s.pc, s.pc⟩ := by
  have hfetch : fetchCause s = some ⟨.mem, if s.pc ≤ 255 then 256 else s.pc, s.pc⟩ := by
    rw [fetchCause, if_neg (by omega)]
    split <;> rfl
  rw [cycleCause, hfetch, Option.some_or]

/-! ## The obligations on which way a cycle goes -/

/-- Settles O28: the three run states, one by one. -/
theorem cyclesRunExactlyWhileRunning : Obligations.CyclesRunExactlyWhileRunning := fun ops _ =>
  ⟨stepWith_next ops, stepWith_halted ops, fun _ => stepWith_aborted ops⟩

/-- Settles O24: decoding the window's three bytes is decoding the window. -/
theorem stepRunsTheDecodedInstruction : Obligations.StepRunsTheDecodedInstruction := by
  intro ops s i hr hpc hd
  have hstep := stepWith_of_decodeWindow hr hpc (decode_cons_eq_ok.mp hd)
  exact ⟨hstep, fun hops => by rw [← hstep, hops, step]⟩

/-- Settles O26: the closed form of the stepped-over cycle, and that 0x00 has the shape of no open
opcode. -/
theorem unknownOpcodeIsALoggedNoOp : Obligations.UnknownOpcodeIsALoggedNoOp := by
  refine ⟨fun ops s hr hpc hunknown => ?_, fun _ => zero_not_mem_knownOpcodes⟩
  refine ⟨_, stepWith_of_unknown hr hpc hunknown, rfl, ?_, rfl, fun _ => rfl, hr, rfl⟩
  rw [steppedOver, State.withPc_pc, operandCount_eq]

/-- Settles O27: a fetch row of the table applies before any other. -/
theorem fetchBeyondMemoryAborts : Obligations.FetchBeyondMemoryAborts := fun ops _ hr hpc =>
  ⟨_, stepWith_of_cause hr (cycleCause_of_fetch ops hpc), rfl, rfl, fun _ => rfl, rfl, rfl, rfl⟩

/-- The placed word is what is fetched: its window decodes to the word's instruction. -/
theorem decodeWindow_withFetchWord (s : State) (nbits w : Nat) :
    decodeWindow Config.opcodes (s.withFetchWord nbits w).opcodeByte
      (s.withFetchWord nbits w).operandA (s.withFetchWord nbits w).operandB =
        decodeTableWord nbits w := by
  simp [State.opcodeByte, State.operandA, State.operandB, withFetchWord_read, decodeTableWord]

/-- Settles O29: the fetch reads the placed bytes, and reads elsewhere are as before. -/
theorem placedWordIsTheNextInstruction : Obligations.PlacedWordIsTheNextInstruction := by
  intro s nbits w
  refine ⟨fun i hi => ?_, rfl, rfl, rfl, fun hr hpc => ?_⟩
  · exact stepWith_of_decodeWindow rfl (withFetchWord_pc_le s nbits w)
      ((decodeWindow_withFetchWord s nbits w).trans hi)
  · have hpc' : (s.withFetchWord nbits w).pc = s.pc := if_pos hpc
    refine ⟨rfl, hpc', fun a ha => ?_⟩
    rw [withFetchWord_read, hpc']
    simp only [show a ≠ s.pc by omega, show a ≠ s.pc + 1 by omega, show a ≠ s.pc + 2 by omega,
      if_false]

/-! ## The table of causes -/

theorem completed_not_aborted {i : Instr} {s : State} (hr : s.run = .running)
    (info : OutOfBounds) : (completed i s).run ≠ .aborted info := by
  rw [completed_run, hr]
  split <;> exact nofun

theorem steppedOver_not_aborted {s : State} (hr : s.run = .running) (info : OutOfBounds) :
    (steppedOver s).run ≠ .aborted info := by
  rw [steppedOver, State.withPc_run, State.logWarning_run, hr]
  exact nofun

/-- Settles O31: `exec_eq`, read for each of its two outcomes. -/
theorem instructionsAbortAsTabled : Obligations.InstructionsAbortAsTabled := fun i s =>
  ⟨fun _ => exec_of_cause, fun h => ⟨_, exec_of_no_cause h, completed_run i s⟩⟩

/-- Settles O32: of the three ways of a cycle only the abort has a cause, and only it ends
Aborted. -/
theorem cyclesAbortExactlyAsTabled : Obligations.CyclesAbortExactlyAsTabled := by
  intro ops s t info hstep
  obtain ⟨hr, ⟨info', hcause, rfl⟩ | ⟨-, hnone, i, -, -, rfl⟩ | ⟨-, hnone, -, rfl⟩⟩ :=
    stepWith_cases hstep
  · rw [abort_run, hcause, RunState.aborted.injEq, Option.some.injEq]
    exact ⟨Iff.rfl, fun h => h ▸ ⟨rfl, (cycleCause_spec hcause).1⟩⟩
  · have hrun := completed_not_aborted (i := i) hr info
    exact ⟨iff_of_false hrun (hnone ▸ nofun), fun h => absurd h hrun⟩
  · have hrun := steppedOver_not_aborted hr info
    exact ⟨iff_of_false hrun (hnone ▸ nofun), fun h => absurd h hrun⟩

/-- Settles O33: only the completed HALT leaves a running machine Halted. -/
theorem onlyHltHalts : Obligations.OnlyHltHalts := by
  intro ops s t hstep hhalted
  obtain ⟨hr, ⟨info, -, rfl⟩ | ⟨hpc, -, i, hd, -, rfl⟩ | ⟨-, -, -, rfl⟩⟩ := stepWith_cases hstep
  · cases hhalted
  · rw [completed_run, hr] at hhalted
    split at hhalted
    · next hi =>
      subst hi
      exact ⟨(decodeWindow_handler hd).1.symm, hpc, rfl⟩
    · cases hhalted
  · cases hr.symm.trans hhalted

/-! ## Where a cycle leaves pc -/

/-- A handler's instruction is decoded from its own opcode byte, and from no other. -/
theorem handler_of_opcodeByte {ops : Opcodes} (ha : ops.admissible) {s : State} {i : Instr}
    (hd : decodeWindow ops s.opcodeByte s.operandA s.operandB = some i) {h : Handler}
    (ho : s.opcodeByte = h.opcode ops) : h.instr s.operandA s.operandB = i := by
  obtain ⟨hopcode, hinstr⟩ := decodeWindow_handler hd
  rwa [opcode_injective ha (hopcode.trans ho)] at hinstr

/-- Settles O30: a completed instruction advances or jumps as its opcode byte says, and an unknown
byte, which is neither CALL's nor RETURN's, advances. -/
theorem nextPcFollowsTheDecoder : Obligations.NextPcFollowsTheDecoder := by
  intro ops s t ha hstep hnoabort
  obtain ⟨hr, ⟨info, -, rfl⟩ | ⟨-, -, i, hd, hcause, rfl⟩ | ⟨-, -, hunknown, rfl⟩⟩ :=
    stepWith_cases hstep
  · exact absurd rfl (hnoabort info)
  · have hopcode := (decodeWindow_handler hd).1
    refine ⟨fun hadvance => ?_, fun hcall => ?_, fun hret => ?_⟩
    · rw [← hopcode] at hadvance ⊢
      have hclear := hadvance.resolve_left (not_not.mpr (opcode_mem_knownOpcodes ops _))
      exact completed_pc_of_not_setsPc ha i hclear s
    · obtain rfl := handler_of_opcodeByte ha hd (h := .call) hcall
      have hr := call_operand_of_no_cause hcause
      exact ⟨hr, completed_call_pc hr s⟩
    · obtain rfl := handler_of_opcodeByte ha hd (h := .ret) hret
      rfl
  · refine ⟨fun _ => rfl, fun hcall => ?_, fun hret => ?_⟩
    · exact absurd (hcall ▸ opcode_mem_knownOpcodes ops .call) hunknown
    · exact absurd (hret ▸ opcode_mem_knownOpcodes ops .ret) hunknown

end Sys2Proof.Machine

/-! PROOF. The instructions one by one (41_ldi_prn.md to 45_hlt_unknown.md), and the pairs of rules
R53, R123 and R133: what each changes and leaves unchanged, read off `completed`. -/

namespace Sys2Proof.Machine

/-! ## Register operands -/

/-- Settles O10: the two branches of the bounds check of a register operand. -/
theorem registerAccessIsBoundsChecked : Obligations.RegisterAccessIsBoundsChecked := by
  refine fun i v s => ⟨fun hi => ?_, fun hi => ⟨readReg_of_ge hi s, writeReg_of_ge hi v s⟩⟩
  refine ⟨_, writeReg_of_lt hi v s, ?_, fun j hne => ?_, fun _ => rfl, rfl, rfl, rfl, rfl⟩
  · rw [readReg_of_lt hi, State.withRegs_regs, Vector.getElem_set_self]
  · rcases Nat.lt_or_ge j 8 with hj | hj
    · rw [readReg_of_lt hj, readReg_of_lt hj, State.withRegs_regs,
        Vector.getElem_set_ne hi hj hne.symm]
    · rw [readReg_of_ge hj, readReg_of_ge hj, State.withRegs_pc]

/-! ## PRINT-REGISTER and the decimal spelling -/

/-- Settles O12: the closed forms of PRINT-REGISTER, read field by field (rule R101). -/
theorem prnPrintsItsRegister : Obligations.PrnPrintsItsRegister := by
  refine ⟨fun r hr s => ?_, fun r s hr => ⟨_, execPrn_badReg hr s, rfl, rfl, rfl⟩⟩
  exact ⟨_, execPrn_ok hr s, (List.append_assoc ..).symm, rfl, fun _ => rfl, rfl, rfl, rfl⟩

theorem digit_ne_zero {n : Nat} (hpos : 0 < n) (hlt : n < 10) : digit n ≠ 0x30#8 := by
  intro h
  have hval := digit_toNat hlt
  rw [h] at hval
  simp at hval; omega

theorem decimal_length (v : Byte) : 1 ≤ (decimal v).length ∧ (decimal v).length ≤ 3 := by
  obtain ⟨-, hd⟩ | ⟨-, hd⟩ | ⟨-, hd⟩ := decimal_cases v <;> simp [hd]

/-- A spelling of two or three digits begins with a quotient that is not 0. -/
theorem decimal_of_head_zero {v : Byte} (h : (decimal v).head? = some 0x30#8) :
    decimal v = [0x30#8] := by
  have hv := v.isLt
  by_cases h10 : v.toNat < 10
  · have hd : decimal v = [digit v.toNat] := if_pos h10
    rw [hd] at h ⊢
    rw [Option.some.inj h]
  by_cases h100 : v.toNat < 100
  · have hd : decimal v = [digit (v.toNat / 10), _] := (if_neg h10).trans (if_pos h100)
    rw [hd] at h
    exact absurd (Option.some.inj h) (digit_ne_zero (by omega) (by omega))
  · have hd : decimal v = [digit (v.toNat / 100), _, _] := (if_neg h10).trans (if_neg h100)
    rw [hd] at h
    exact absurd (Option.some.inj h) (digit_ne_zero (by omega) (by omega))

/-- Settles O13: the spelling reads back (`decimalValue_decimal`), so lines are injective. -/
theorem decimalSpellingIsCanonical : Obligations.DecimalSpellingIsCanonical := by
  refine ⟨fun v => ⟨decimalValue_decimal v, isDigit_of_mem_decimal v, (decimal_length v).1,
    (decimal_length v).2, decimal_of_head_zero⟩, fun v w hline => ?_⟩
  have hdecimal : decimal v = decimal w := List.append_cancel_right hline
  exact BitVec.eq_of_toNat_eq <| by rw [← decimalValue_decimal v, hdecimal, decimalValue_decimal]

/-! ## MULTIPLY -/

theorem product_toNat (p q : Byte) : (product p q).toNat = p.toNat * q.toNat % 256 :=
  BitVec.toNat_ofNat ..

theorem product_eq_mul (p q : Byte) : product p q = p * q :=
  BitVec.eq_of_toNat_eq <| by rw [product_toNat, BitVec.toNat_mul]

/-- The low byte of the signed product is that of the unsigned one (rule R111). -/
theorem product_eq_ofInt (p q : Byte) : product p q = BitVec.ofInt 8 (p.toInt * q.toInt) := by
  rw [product_eq_mul, BitVec.ofInt_mul, BitVec.ofInt_toInt, BitVec.ofInt_toInt]

/-- Settles O14: the closed forms of MULTIPLY, read field by field (rule R110). -/
theorem mulWritesTheProduct : Obligations.MulWritesTheProduct := by
  refine ⟨fun a b ha hb s => ?_, fun a b s hbad => ?_⟩
  · refine ⟨_, execMul_ok ha hb s, ?_, fun j hj hne => Vector.getElem_set_ne ha hj hne.symm,
      fun _ => rfl, rfl, rfl, rfl, rfl⟩
    rw [State.withPc_regs, State.withRegs_regs, Vector.getElem_set_self, product_toNat]
  · rcases Nat.lt_or_ge a 8 with ha | ha
    · have hb : 8 ≤ b := by omega
      exact ⟨_, execMul_badB ha hb s, by rw [abort_run, if_neg (by omega)], rfl, rfl⟩
    · exact ⟨_, execMul_badA ha b s, by rw [abort_run, if_pos ha], rfl, rfl⟩

theorem execMul_result {a b : Nat} (ha : a < 8) (hb : b < 8) {s t : State}
    (h : exec (.mul a b) s = .next t) : t.regs[a] = product s.regs[a] s.regs[b] := by
  obtain rfl := Host.Outcome.next.inj ((execMul_ok ha hb s).symm.trans h)
  exact Vector.getElem_set_self ha

/-- Settles O15: both orders leave the product of the two bytes, which is the signed one too. -/
theorem mulIsSignAgnosticAndCommutes : Obligations.MulIsSignAgnosticAndCommutes := by
  intro a b ha hb s t u ht hu
  rw [execMul_result ha hb ht, execMul_result hb ha hu, ← product_eq_ofInt]
  exact ⟨rfl, by rw [product_eq_mul, product_eq_mul, BitVec.mul_comm]⟩

/-! ## The stack: when its instructions raise nothing, and what they leave -/

theorem popCause_eq_none {top : Byte} {s : State} : popCause top s = none ↔ top ≠ 0xFF#8 := by
  unfold popCause
  split <;> simp_all

theorem push_no_cause {r : Nat} {s : State} :
    handlerCause (.push r) s = none ↔ s.sp ≠ 0#8 ∧ r < 8 := by
  rw [handlerCause, Option.or_eq_none_iff, pushCause_eq_none, registerCause_eq_none]

theorem call_no_cause {r : Nat} {s : State} :
    handlerCause (.call r) s = none ↔ s.sp ≠ 0#8 ∧ r < 8 := by
  rw [handlerCause, Option.or_eq_none_iff, pushCause_eq_none, registerCause_eq_none]

theorem pop_no_cause {r : Nat} {s : State} :
    handlerCause (.pop r) s = none ↔ r < 8 ∧ popTop r s ≠ 0xFF#8 := by
  rw [handlerCause, Option.or_eq_none_iff, registerCause_eq_none, popCause_eq_none, popTop]

theorem ret_no_cause {s : State} : handlerCause .ret s = none ↔ s.sp ≠ 0xFF#8 := popCause_eq_none

theorem eq_completed {i : Instr} {s t : State} (hcause : handlerCause i s = none)
    (h : exec i s = .next t) : t = completed i s :=
  Host.Outcome.next.inj (h.symm.trans (exec_of_no_cause hcause))

theorem popTop_of_ne {r : Nat} (h : r ≠ 7) (s : State) : popTop r s = s.sp := if_neg h

@[simp] theorem completed_push_sp (r : Nat) (s : State) :
    (completed (.push r) s).sp = s.sp - 1#8 := Vector.getElem_set_self (by decide)

@[simp] theorem completed_call_sp (r : Nat) (s : State) :
    (completed (.call r) s).sp = s.sp - 1#8 := Vector.getElem_set_self (by decide)

@[simp] theorem completed_pop_sp (r : Nat) (s : State) :
    (completed (.pop r) s).sp = popTop r s + 1#8 := Vector.getElem_set_self (by decide)

@[simp] theorem completed_ret_sp (s : State) : (completed .ret s).sp = s.sp + 1#8 :=
  Vector.getElem_set_self (by decide)

theorem completed_push_regs_ne (r : Nat) (s : State) {j : Nat} (hj : j < 8) (hne : j ≠ 7) :
    (completed (.push r) s).regs[j] = s.regs[j] := Vector.getElem_set_ne (by decide) hj hne.symm

theorem completed_call_regs_ne (r : Nat) (s : State) {j : Nat} (hj : j < 8) (hne : j ≠ 7) :
    (completed (.call r) s).regs[j] = s.regs[j] := Vector.getElem_set_ne (by decide) hj hne.symm

theorem completed_ret_regs_ne (s : State) {j : Nat} (hj : j < 8) (hne : j ≠ 7) :
    (completed .ret s).regs[j] = s.regs[j] := Vector.getElem_set_ne (by decide) hj hne.symm

theorem completed_pop_regs_ne (r : Nat) (s : State) {j : Nat} (hj : j < 8) (hne : j ≠ 7) :
    (completed (.pop r) s).regs[j] = if r = j then s.mem.read s.sp.toNat else s.regs[j] :=
  (completed_regs (.pop r) s j hj).trans (if_neg hne.symm)

/-- The stored address as the natural number memory is read at. -/
theorem pushAddress_toNat {s : State} (h : s.sp ≠ 0#8) :
    (pushAddress s).toNat = s.sp.toNat - 1 := by rw [pushAddress_eq h, Int.toNat_natCast]

/-- After a step down the stack pointer is the address that was stored to. -/
theorem pred_sp_toNat {s : State} (h : s.sp ≠ 0#8) :
    ((s.sp - 1#8).toNat : Int) = pushAddress s := by rw [toNat_pred h, pushAddress_eq h]

theorem push_stored (r : Nat) {s : State} (h : s.sp ≠ 0#8) :
    (completed (.push r) s).mem.read (pushAddress s).toNat =
      if r = 7 then s.sp - 1#8 else regAt s r := by
  rw [completed_mem, pushAddress_toNat h, Memory.read_write_same]

theorem call_stored (r : Nat) {s : State} (h : s.sp ≠ 0#8) :
    (completed (.call r) s).mem.read (pushAddress s).toNat = returnAddress s := by
  rw [completed_mem, pushAddress_toNat h, Memory.read_write_same]

theorem read_write_pushAddress_ne {s : State} (h : s.sp ≠ 0#8) {a : Nat}
    (hne : (a : Int) ≠ pushAddress s) (v : Byte) :
    (s.mem.write (s.sp.toNat - 1) v).read a = s.mem.read a :=
  Memory.read_write_ne _ v fun e => hne (by rw [e, pushAddress_eq h])

theorem returnAddress_toNat {s : State} (h : s.pc ≤ 253) :
    (returnAddress s).toNat = s.pc + 2 := by
  rw [returnAddress, BitVec.toNat_ofNat, Nat.mod_eq_of_lt (by omega)]

/-! ## The obligations on the stack's instructions -/

/-- Settles O16: PUSH completes, and its fields are those of `completed` (rules R120 and R122). -/
theorem pushStoresBelowTheTop : Obligations.PushStoresBelowTheTop := by
  intro r hr s hsp
  refine ⟨_, exec_of_no_cause (push_no_cause.mpr ⟨hsp, hr⟩), ?_, ?_, ?_,
    fun a hne => read_write_pushAddress_ne hsp hne _, fun j hj => completed_push_regs_ne r s hj,
    rfl, rfl, rfl, rfl⟩
  · rw [completed_push_sp, pred_sp_toNat hsp]
  · rw [completed_push_sp, pred_sp_toNat hsp, pushAddress]
  · rw [push_stored r hsp, completed_push_sp, regAt_of_lt hr]

/-- Settles O17: POP completes where its stack step does not leave 255 (rules R121 and R122). -/
theorem popLoadsTheTop : Obligations.PopLoadsTheTop := by
  intro r hr s v hread htop
  obtain rfl : s.mem.read s.sp.toNat = v := Except.ok.inj ((memRead_pop s s).symm.trans hread)
  have hstep : popTop r s ≠ 0xFF#8 := htop
  refine ⟨_, exec_of_no_cause (pop_no_cause.mpr ⟨hr, hstep⟩), rfl, fun hne => ⟨?_, ?_⟩,
    fun h7 => ?_, fun j hj hne hne7 => ?_, fun _ => rfl, rfl, rfl, rfl, rfl⟩
  · rw [completed_pop_regs_ne r s hr hne, if_pos rfl]
  · rw [completed_pop_sp, toNat_succ hstep, popTop_of_ne hne]
  · rw [completed_pop_sp, toNat_succ hstep, popTop, if_pos h7]
  · rw [completed_pop_regs_ne r s hj hne7, if_neg hne.symm]

/-- Settles O18: CALL completes, and its fields are those of `completed` (rules R130 and R132). -/
theorem callPushesTheReturnAddress : Obligations.CallPushesTheReturnAddress := by
  intro r hr s hsp hpc
  refine ⟨_, exec_of_no_cause (call_no_cause.mpr ⟨hsp, hr⟩), ?_, ?_, ?_,
    fun a hne => read_write_pushAddress_ne hsp hne _, fun j hj => completed_call_regs_ne r s hj, ?_,
    rfl, rfl, rfl⟩
  · rw [completed_call_sp, pred_sp_toNat hsp]
  · rw [completed_call_sp, pred_sp_toNat hsp, pushAddress]
  · rw [call_stored r hsp, returnAddress_toNat hpc]
  · rw [completed_call_sp, ← regAt_of_lt hr s]
    exact completed_pc (.call r) s

/-- Settles O19: RETURN completes, and its fields are those of `completed` (rule R131). -/
theorem retJumpsToTheTop : Obligations.RetJumpsToTheTop := by
  intro s hsp
  refine ⟨_, exec_of_no_cause (ret_no_cause.mpr hsp), ?_, ?_, ?_,
    fun j hj => completed_ret_regs_ne s hj, fun _ => rfl, rfl, rfl, rfl⟩
  · rw [memRead_pop, completed_pc, BitVec.ofNat_toNat, BitVec.setWidth_eq]
  · exact Nat.le_of_lt_succ (s.mem.read s.sp.toNat).isLt
  · rw [completed_ret_sp, toNat_succ hsp]

/-- Settles O20: the closed form of HALT, after which `step` has no cycle. -/
theorem hltHaltsWithStatusZero : Obligations.HltHaltsWithStatusZero := fun s =>
  ⟨_, execHlt_ok s, rfl, rfl, rfl, fun _ => rfl, rfl, rfl, stepWith_halted _ rfl, fun _ => rfl⟩

/-! ## Two instructions in a row -/

theorem pred_ne_ff {b : Byte} (h : b ≠ 0#8) : b - 1#8 ≠ 0xFF#8 := by bv_omega

theorem pred_succ (b : Byte) : b - 1#8 + 1#8 = b := BitVec.sub_add_cancel b 1#8

/-- POP into a register other than 7 right after a PUSH: it completes, takes the byte pushed and
restores the stack pointer (rule R123). -/
theorem pop_after_push {r r' : Nat} (hr' : r' < 8) (hne : r' ≠ 7) {s : State} (hsp : s.sp ≠ 0#8) :
    ∃ u, exec (.pop r') (completed (.push r) s) = .next u ∧
      u.regs[r'] = (if r = 7 then s.sp - 1#8 else regAt s r) ∧ u.sp = s.sp ∧
      (∀ (j : Nat) (hj : j < 8), j ≠ r' → u.regs[j] = s.regs[j]) ∧ u.pc = s.pc + 4 := by
  have htop : popTop r' (completed (.push r) s) = s.sp - 1#8 := by
    rw [popTop_of_ne hne, completed_push_sp]
  have hrestored : (completed (.pop r') (completed (.push r) s)).sp = s.sp := by
    rw [completed_pop_sp, htop, pred_succ]
  refine ⟨_, exec_of_no_cause (pop_no_cause.mpr ⟨hr', htop ▸ pred_ne_ff hsp⟩), ?_, hrestored,
    fun j hj hj' => ?_, rfl⟩
  · rw [completed_pop_regs_ne r' _ hr' hne, if_pos rfl, ← push_stored r hsp, completed_push_sp,
      toNat_pred hsp, pushAddress_toNat hsp]
  · by_cases h7 : j = 7
    · subst h7; exact hrestored
    · rw [completed_pop_regs_ne r' _ hj h7, if_neg hj'.symm, completed_push_regs_ne r s hj h7]

/-- Settles O21: `pop_after_push`, for a register 0 to 6 and for register 7. -/
theorem pushThenPopIsStackNeutral : Obligations.PushThenPopIsStackNeutral := by
  refine ⟨fun r r' hr hr' s t hne hne' hsp ht => ?_, fun s t hsp ht => ?_⟩
  · obtain rfl := eq_completed (push_no_cause.mpr ⟨hsp, hr⟩) ht
    have hpop := pop_after_push (r := r) hr' hne' hsp
    rwa [if_neg hne, regAt_of_lt hr] at hpop
  · obtain rfl := eq_completed (push_no_cause.mpr ⟨hsp, by decide⟩) ht
    obtain ⟨u, hu, hreg, hrestored, -⟩ :=
      pop_after_push (r := 7) (r' := 0) (by decide) (by decide) hsp
    exact ⟨u, hu, hreg, hrestored⟩

/-- Settles O22: RETURN pops the byte CALL pushed, which fits since pc is at most 253
(rule R133). -/
theorem retResumesAfterTheCall : Obligations.RetResumesAfterTheCall := by
  intro r hr s t u hsp hpc ht hkept hbyte
  obtain rfl := eq_completed (call_no_cause.mpr ⟨hsp, hr⟩) ht
  rw [completed_call_sp] at hkept hbyte
  refine ⟨_, exec_of_no_cause (ret_no_cause.mpr (hkept ▸ pred_ne_ff hsp)), ?_, ?_,
    fun j hj => completed_ret_regs_ne u hj, fun _ => rfl⟩
  · rw [completed_pc, hkept, hbyte, toNat_pred hsp, ← pushAddress_toNat hsp, call_stored r hsp,
      returnAddress_toNat hpc]
  · rw [completed_ret_sp, hkept, pred_succ]

theorem decodeWindow_hlt (ops : Opcodes) (a b : Byte) (h : select ops 0x01#8 = some .hlt) :
    decodeWindow ops 0x01#8 a b = some .hlt := decodeWindow_eq_some.mpr ⟨.hlt, h, rfl⟩

/-- Settles O23: the byte stored is the one fetched next, and its cycle is HALT's or that of an
unknown opcode (20_memory.md rule R53). -/
theorem storedByteIsTheNextOpcode : Obligations.StoredByteIsTheNextOpcode := by
  intro r hr s t hne hrun hpc hsp haddr ht
  obtain rfl := eq_completed (push_no_cause.mpr ⟨hsp, hr⟩) ht
  have hrun' : (completed (.push r) s).run = .running := hrun
  have hpc' : (completed (.push r) s).pc ≤ 253 := Nat.add_le_add_right hpc 2
  have hopcode : (completed (.push r) s).opcodeByte = s.regs[r] := by
    have hstored := push_stored r hsp
    rwa [haddr, if_neg hne, regAt_of_lt hr] at hstored
  refine ⟨hopcode, fun hhlt => ?_, fun hzero => ?_⟩
  · refine ⟨_, stepWith_of_completed (i := .hlt) hrun' hpc' ?_ rfl, rfl, rfl⟩
    rw [hopcode, hhlt]
    exact decodeWindow_hlt _ _ _ (by decide)
  · have hunknown : (completed (.push r) s).opcodeByte ∉ knownOpcodes Config.opcodes := by
      rw [hopcode, hzero]
      exact zero_not_mem_knownOpcodes (by decide)
    refine ⟨_, stepWith_of_unknown hrun' hpc' hunknown, hrun', ?_⟩
    rw [steppedOver, hopcode, hzero]
    rfl

/-! ## The range of the stack pointer -/

theorem pushAddress_range {s : State} (h : s.sp ≠ 0#8) :
    0 ≤ pushAddress s ∧ pushAddress s ≤ 254 := by
  have := s.sp.isLt
  rw [pushAddress_eq h]; omega

/-- At a stack pointer of 255 a POP is fatal unless it is POP R7 of another byte than 255
(rule R122). -/
theorem popTop_full {r : Nat} {s : State} (hsp : s.sp = 0xFF#8)
    (h : r ≠ 7 ∨ s.mem.read 255 = 0xFF#8) : popTop r s = 0xFF#8 := by
  have htop : s.mem.read s.sp.toNat = s.mem.read 255 := by rw [hsp]; rfl
  unfold popTop
  split
  · next h7 => rw [htop, h.resolve_left (not_not.mpr h7)]
  · exact hsp

/-- Settles O46: the faults of the stack step, and that a POP which leaves pc at fault moved
nothing (rule R190). -/
theorem stackPointerRangeIsEnforced : Obligations.StackPointerRangeIsEnforced := by
  intro r s hr
  refine ⟨fun hsp => ⟨execPush_emptySp r hsp, execCall_emptySp r hsp⟩,
    fun hsp => ⟨execRet_fullSp hsp, fun h => execPop_fullSp hr (popTop_full hsp h), ?_⟩,
    pushAddress_range, fun t ht hmoved => ?_⟩
  · intro h7 hbyte
    have htop : popTop r s ≠ 0xFF#8 := by
      rw [popTop, if_pos h7, hsp]
      exact hbyte
    exact ⟨_, exec_of_no_cause (pop_no_cause.mpr ⟨hr, htop⟩), rfl, rfl⟩
  · by_cases hsp : s.sp = 0xFF#8
    · by_contra hother
      have hbyte (h7 : r = 7) : s.mem.read 255 = 0xFF#8 :=
        not_not.mp fun hne => hother (.inr ⟨h7, hne⟩)
      have hfull := popTop_full hsp (imp_iff_not_or.mp hbyte)
      obtain rfl := Host.Outcome.next.inj ((execPop_fullSp hr hfull).symm.trans ht)
      exact hmoved rfl
    · refine .inl ?_
      have := s.sp.isLt
      have hne : s.sp.toNat ≠ 255 := fun e => hsp (BitVec.eq_of_toNat_eq e)
      rw [popAddress]; omega

end Sys2Proof.Machine

/-! PROOF. What a cycle can change: registers (10_state.md rule R24), memory (20_memory.md rule R55,
70_reset_and_hazards.md rule R190), and the two outward records `OUT` and `WARN`, which it appends
to and never reads (10_state.md rules R28 and R29). -/

namespace Sys2Proof.Machine

/-! ## Registers and memory -/

theorem operand_of_decodeWindow {ops : Opcodes} {s : State} {i : Instr}
    (hd : decodeWindow ops s.opcodeByte s.operandA s.operandB = some i) {r : Nat}
    (hi : (∃ v, i = .ldi r v) ∨ (∃ b, i = .mul r b) ∨ i = .pop r) : s.operandA.toNat = r := by
  have hinstr := (decodeWindow_handler hd).2
  obtain ⟨v, rfl⟩ | ⟨b, rfl⟩ | rfl := hi
  · exact (Instr.ldi.inj hinstr).1
  · exact (Instr.mul.inj hinstr).1
  · exact Instr.pop.inj hinstr

/-- The registers an instruction writes, by its handler (rule R24). -/
theorem completed_regs_changed {i : Instr} {s : State} {j : Nat} (hj : j < 8)
    (h : (completed i s).regs[j] ≠ s.regs[j]) :
    ((∃ v, i = .ldi j v) ∨ (∃ b, i = .mul j b) ∨ i = .pop j) ∨
      (j = 7 ∧ i.handler ∈ [Handler.push, .pop, .call, .ret]) := by
  rw [completed_regs] at h
  cases i with
  | ldi r v =>
    obtain ⟨rfl, -⟩ := ite_ne_right_iff.mp h
    exact .inl (.inl ⟨v, rfl⟩)
  | mul a b =>
    obtain ⟨rfl, -⟩ := ite_ne_right_iff.mp h
    exact .inl (.inr (.inl ⟨b, rfl⟩))
  | pop r =>
    by_cases h7 : 7 = j
    · exact .inr ⟨h7.symm, by simp [Instr.handler]⟩
    · obtain ⟨rfl, -⟩ := ite_ne_right_iff.mp ((if_neg h7).symm.trans_ne h)
      exact .inl (.inr (.inr rfl))
  | push r | call r | ret =>
    obtain ⟨rfl, -⟩ := ite_ne_right_iff.mp h
    exact .inr ⟨rfl, by simp [Instr.handler]⟩
  | prn r | hlt => exact absurd rfl h

/-- Settles O34: only a completed instruction writes registers, and those `completed_regs_changed`
lists. -/
theorem registersChangeOnlyAsListed : Obligations.RegistersChangeOnlyAsListed := by
  intro ops s t j hj hstep hchanged
  obtain ⟨hr, ⟨info, -, rfl⟩ | ⟨-, -, i, hd, -, rfl⟩ | ⟨-, -, -, rfl⟩⟩ := stepWith_cases hstep
  · exact absurd rfl hchanged
  · refine ⟨completed_not_aborted hr, ?_⟩
    have hopcode := (decodeWindow_handler hd).1
    obtain hfirst | ⟨h7, hstack⟩ := completed_regs_changed hj hchanged
    · refine .inl ⟨operand_of_decodeWindow hd hfirst, ?_⟩
      obtain ⟨v, rfl⟩ | ⟨b, rfl⟩ | rfl := hfirst <;> simp [← hopcode, Instr.handler, Handler.opcode]
    · refine .inr ⟨h7, ?_⟩
      rw [← hopcode]
      exact List.mem_map_of_mem (f := Handler.opcode ops) hstack
  · exact absurd rfl hchanged

/-- The byte an instruction writes, and which instructions write one (rule R55). -/
theorem completed_mem_changed {i : Instr} {s : State} (hcause : handlerCause i s = none) {a : Nat}
    (h : (completed i s).mem.read a ≠ s.mem.read a) :
    s.sp ≠ 0#8 ∧ (a : Int) = pushAddress s ∧ (i.handler = .push ∨ i.handler = .call) := by
  cases i with
  | push r =>
    have hsp := (push_no_cause.mp hcause).1
    exact ⟨hsp, by_contra fun hne => h (read_write_pushAddress_ne hsp hne _), .inl rfl⟩
  | call r =>
    have hsp := (call_no_cause.mp hcause).1
    exact ⟨hsp, by_contra fun hne => h (read_write_pushAddress_ne hsp hne _), .inr rfl⟩
  | _ => exact absurd rfl h

/-- What a cycle that changes memory is: a PUSH or a CALL that did not fault. -/
theorem stepWith_mem_changed {ops : Opcodes} {s t : State} (hstep : stepWith ops s = .next t)
    {a : Nat} (h : t.mem.read a ≠ s.mem.read a) :
    s.sp ≠ 0#8 ∧ (a : Int) = pushAddress s ∧
      (s.opcodeByte = ops.push ∨ s.opcodeByte = ops.call) := by
  obtain ⟨-, ⟨info, -, rfl⟩ | ⟨-, -, i, hd, hcause, rfl⟩ | ⟨-, -, -, rfl⟩⟩ := stepWith_cases hstep
  · exact absurd rfl h
  · obtain ⟨hsp, haddr, hhandler⟩ := completed_mem_changed hcause h
    refine ⟨hsp, haddr, ?_⟩
    rw [← (decodeWindow_handler hd).1]
    exact hhandler.imp (congrArg (Handler.opcode ops)) (congrArg (Handler.opcode ops))
  · exact absurd rfl h

/-- Settles O35: `stepWith_mem_changed` without its stack pointer. -/
theorem onlyPushAndCallStore : Obligations.OnlyPushAndCallStore :=
  fun _ _ _ _ hstep hchanged => (stepWith_mem_changed hstep hchanged).2

/-- Settles O36: a byte that changes is at `pushAddress`, which is at most 254. -/
theorem topByteIsNeverWritten : Obligations.TopByteIsNeverWritten := by
  intro ops s t hstep
  by_contra hchanged
  obtain ⟨hsp, haddr, -⟩ := stepWith_mem_changed hstep hchanged
  have hrange := (pushAddress_range hsp).2
  omega

/-! ## `OUT` -/

/-- What an instruction appends to `OUT`: one line for PRINT-REGISTER (rule R101). -/
def emitted (i : Instr) (s : State) : List Byte :=
  match i with
  | .prn r => printedLine (regAt s r)
  | _      => []

theorem completed_out_emitted (i : Instr) (s : State) :
    (completed i s).out = s.out ++ emitted i s := by
  cases i <;> simp [completed_out, emitted]

/-- An instruction does not read `OUT`: on any other it does the same and appends the same. -/
theorem completed_withOut (i : Instr) (s : State) (o : List Byte) :
    completed i { s with out := o } = { completed i s with out := o ++ emitted i s } := by
  cases i with
  | prn r => rfl
  | _ => simp only [emitted, List.append_nil]; rfl

theorem emitted_ne_nil {ops : Opcodes} {s : State} {i : Instr}
    (hd : decodeWindow ops s.opcodeByte s.operandA s.operandB = some i)
    (hcause : handlerCause i s = none) (h : emitted i s ≠ []) :
    s.opcodeByte = 0x47#8 ∧ ∃ hr : s.operandA.toNat < 8,
      emitted i s = decimal s.regs[s.operandA.toNat] ++ [0x0A#8] := by
  cases i with
  | prn r =>
    obtain ⟨hopcode, hinstr⟩ := decodeWindow_handler hd
    obtain rfl : s.operandA.toNat = r := Instr.prn.inj hinstr
    have hr := registerCause_eq_none.mp hcause
    exact ⟨hopcode.symm, hr, by rw [emitted, regAt_of_lt hr, printedLine]⟩
  | _ => exact absurd rfl h

/-- One cycle and `OUT`: what it appends, and that it does the same on any other `OUT`. -/
theorem stepWith_out {ops : Opcodes} {s t : State} (hstep : stepWith ops s = .next t) :
    ∃ line, t.out = s.out ++ line ∧
      (line ≠ [] → s.opcodeByte = 0x47#8 ∧
        ∃ h : s.operandA.toNat < 8, line = decimal s.regs[s.operandA.toNat] ++ [0x0A#8]) ∧
      ∀ o, stepWith ops { s with out := o } = .next { t with out := o ++ line } := by
  obtain ⟨hr, ⟨info, hcause, rfl⟩ | ⟨hpc, -, i, hd, hcause, rfl⟩ | ⟨hpc, -, hunknown, rfl⟩⟩ :=
    stepWith_cases hstep
  · refine ⟨[], (List.append_nil _).symm, absurd rfl, fun o => ?_⟩
    rw [List.append_nil]
    exact stepWith_of_cause (s := { s with out := o }) hr hcause
  · refine ⟨emitted i s, completed_out_emitted i s, emitted_ne_nil hd hcause, fun o => ?_⟩
    rw [← completed_withOut]
    exact stepWith_of_completed (s := { s with out := o }) hr hpc hd hcause
  · refine ⟨[], (List.append_nil _).symm, absurd rfl, fun o => ?_⟩
    rw [List.append_nil]
    exact stepWith_of_unknown (s := { s with out := o }) hr hpc hunknown

/-- Settles O37: `stepWith_out` for the cycle; an ended run has an exit status and so a result. -/
theorem onlyPrnAppendsToOut : Obligations.OnlyPrnAppendsToOut := by
  refine ⟨fun _ => rfl, fun _ _ _ => stepWith_out, fun e s hended => ?_⟩
  rcases hrun : s.run with _ | _ | info
  · exact absurd hrun hended
  · exact ⟨⟨s.out, 0, none⟩, by simp [observe, hrun, exitStatus, RunState.record], rfl⟩
  · exact ⟨⟨s.out, e.fatal, some info⟩, by simp [observe, hrun, exitStatus, RunState.record], rfl⟩

/-! ## `WARN` -/

theorem completed_withWarn (i : Instr) (s : State) (w : List Warning) :
    completed i { s with warn := w } = { completed i s with warn := w } := by
  cases i <;> rfl

/-- Settles O38: of the three ways of a cycle only the unknown opcode appends, and none reads
`WARN`. -/
theorem onlyUnknownOpcodesWarn : Obligations.OnlyUnknownOpcodesWarn := by
  intro ops s t hstep
  obtain ⟨hr, ⟨info, hcause, rfl⟩ | ⟨hpc, -, i, hd, hcause, rfl⟩ | ⟨hpc, -, hunknown, rfl⟩⟩ :=
    stepWith_cases hstep
  · refine ⟨[], (List.append_nil _).symm, absurd rfl, fun w => ?_⟩
    rw [List.append_nil]
    exact stepWith_of_cause (s := { s with warn := w }) hr hcause
  · refine ⟨[], by rw [completed_warn, List.append_nil], absurd rfl, fun w => ?_⟩
    rw [List.append_nil, ← completed_withWarn]
    exact stepWith_of_completed (s := { s with warn := w }) hr hpc hd hcause
  · exact ⟨_, rfl, fun _ => ⟨hunknown, rfl⟩,
      fun w => stepWith_of_unknown (s := { s with warn := w }) hr hpc hunknown⟩

end Sys2Proof.Machine

/-! PROOF. The invariant of every run, kept by a cycle and true at reset and after a load
(10_state.md, 70_reset_and_hazards.md rule R180), and how runs end: a load that does not fit
(rule R182), a run off the end of memory (rule R187) and the exit status (60_exceptions.md
rule R158). -/

namespace Sys2Proof.Machine

/-! ## A cycle keeps the invariant -/

theorem completed_mem_wf {s : State} (h : s.mem.wf) (i : Instr) : (completed i s).mem.wf := by
  have hsp := s.sp.isLt
  have hstore (v : Byte) : (s.mem.write (s.sp.toNat - 1) v).wf :=
    Memory.wf_write h (show s.sp.toNat - 1 < 256 by omega) v
  cases i with
  | push r => exact hstore _
  | call r => exact hstore _
  | _ => exact h

/-- A cycle that fetched leaves pc at most 3 above, or at an address held in a byte (rule R25). -/
theorem completed_pc_le {s : State} (h : s.pc ≤ 253) (i : Instr) : (completed i s).pc ≤ 257 := by
  rw [completed_pc]
  cases i with
  | call r => exact Nat.le_of_lt ((BitVec.isLt _).trans (by decide))
  | ret => exact Nat.le_of_lt ((BitVec.isLt _).trans (by decide))
  | _ => dsimp only; omega

theorem steppedOver_pc_le {s : State} (h : s.pc ≤ 253) : (steppedOver s).pc ≤ 257 := by
  have hcount := operandCount_le s.opcodeByte
  rw [steppedOver, State.withPc_pc]; omega

theorem emitted_printed (i : Instr) (s : State) :
    ∃ printed : List Byte, emitted i s = printed.flatMap printedLine := by
  cases i with
  | prn r => exact ⟨[regAt s r], (List.append_nil _).symm⟩
  | _ => exact ⟨[], rfl⟩

theorem completed_out_printed {s : State}
    (h : ∃ printed : List Byte, s.out = printed.flatMap printedLine) (i : Instr) :
    ∃ printed : List Byte, (completed i s).out = printed.flatMap printedLine := by
  obtain ⟨before, hbefore⟩ := h
  obtain ⟨added, hadded⟩ := emitted_printed i s
  exact ⟨before ++ added, by rw [completed_out_emitted, hbefore, hadded, List.flatMap_append]⟩

theorem abort_inv {ops : Opcodes} {s : State} {info : OutOfBounds} (h : s.Inv ops)
    (hlegal : info.legal) (hpc : info.pc = s.pc) : (abort info s).Inv ops where
  memory_canonical := h.memory_canonical
  pc_bounded       := h.pc_bounded
  out_printed      := h.out_printed
  warnings_unknown := h.warnings_unknown
  record_legal     := by
    intro info' hrun
    obtain rfl := RunState.aborted.inj hrun
    exact ⟨hlegal, hpc⟩

theorem completed_inv {ops : Opcodes} {s : State} (h : s.Inv ops) (hr : s.run = .running)
    (hpc : s.pc ≤ 253) (i : Instr) : (completed i s).Inv ops where
  memory_canonical := completed_mem_wf h.memory_canonical i
  pc_bounded       := completed_pc_le hpc i
  out_printed      := completed_out_printed h.out_printed i
  warnings_unknown := completed_warn i s ▸ h.warnings_unknown
  record_legal     := fun info hrun => absurd hrun (completed_not_aborted hr info)

theorem steppedOver_inv {ops : Opcodes} {s : State} (h : s.Inv ops) (hr : s.run = .running)
    (hpc : s.pc ≤ 253) (hunknown : s.opcodeByte ∉ knownOpcodes ops) : (steppedOver s).Inv ops where
  memory_canonical := h.memory_canonical
  pc_bounded       := steppedOver_pc_le hpc
  out_printed      := h.out_printed
  warnings_unknown := by
    intro w hw
    rcases List.mem_append.mp hw with hold | hnew
    · exact h.warnings_unknown w hold
    · obtain rfl := List.mem_singleton.mp hnew
      exact ⟨hpc, hunknown⟩
  record_legal     := fun info hrun => absurd hrun (steppedOver_not_aborted hr info)

/-- Settles O39: each of the three ways of a cycle keeps the invariant. -/
theorem everyCycleKeepsTheInvariant : Obligations.EveryCycleKeepsTheInvariant := by
  intro ops s t hinv hstep
  obtain ⟨hr, ⟨info, hcause, rfl⟩ | ⟨hpc, -, i, -, -, rfl⟩ | ⟨hpc, -, hunknown, rfl⟩⟩ :=
    stepWith_cases hstep
  · obtain ⟨hnames, hlegal⟩ := cycleCause_spec hcause
    exact abort_inv hinv (hlegal hinv.pc_bounded) hnames
  · exact completed_inv hinv hr hpc i
  · exact steppedOver_inv hinv hr hpc hunknown

/-! ## The invariant at reset and after a load -/

/-- Memory in canonical form is all the invariant asks of a machine that is as at reset apart from
memory and registers. -/
theorem withMem_resetWith_inv (ops : Opcodes) (v : ResetValues) {m : Memory} (hm : m.wf) :
    ((State.resetWith v).withMem m).Inv ops where
  memory_canonical := hm
  pc_bounded       := Nat.zero_le _
  out_printed      := ⟨[], rfl⟩
  warnings_unknown := nofun
  record_legal     := nofun

theorem resetWith_inv (ops : Opcodes) (v : ResetValues) : (State.resetWith v).Inv ops :=
  withMem_resetWith_inv ops v Memory.wf_nil

/-- An image that does not fit aborts the run with nothing placed (rule R182). -/
theorem load_of_too_long {image : List Byte} (h : 256 < image.length) (s : State) :
    load image s = abort ⟨.mem, 256, s.pc⟩ s := by
  rw [load, loadFrom_err image Config.origin s (Nat.zero_le _) ((Nat.zero_add _).symm ▸ h)]

theorem load_inv (ops : Opcodes) (v : ResetValues) (image : List Byte) :
    (load image (State.resetWith v)).Inv ops := by
  rcases Nat.lt_or_ge 256 image.length with hlong | hfits
  · rw [load_of_too_long hlong]
    exact abort_inv (resetWith_inv ops v) (.inr ⟨le_rfl, show (256 : Int) ≤ 257 by decide⟩) rfl
  · obtain ⟨m, hload, hwf, -⟩ :=
      loadFrom_ok image Config.origin (State.resetWith v) ((Nat.zero_add _).symm ▸ hfits)
    rw [load, hload]
    exact withMem_resetWith_inv ops v (hwf Memory.wf_nil)

/-- Settles O40: the reset state, and the two outcomes of the load. -/
theorem invariantHoldsAtReset : Obligations.InvariantHoldsAtReset :=
  ⟨resetWith_inv _ _, fun ops v image => ⟨resetWith_inv ops v, load_inv ops v image⟩⟩

/-! ## How runs end -/

/-- Settles O42: the load's abort is the state a run starts in, and no cycle runs there. -/
theorem badProgramsRunNoCycle : Obligations.BadProgramsRunNoCycle := by
  refine ⟨fun v image hlong => ?_, fun _ _ _ => ⟨rfl, rfl⟩⟩
  have hload := load_of_too_long hlong (State.resetWith v)
  refine ⟨congrArg Start.core hload, ?_, fun e => ?_⟩
  · rw [hload]
    exact stepWith_aborted _ rfl
  · rw [start, hload]
    rfl

/-- Settles O43: the three run states, whose statuses differ by rule R7. -/
theorem exitStatusTellsHowTheRunEnded : Obligations.ExitStatusTellsHowTheRunEnded := by
  intro e r ha
  have hfatal : e.fatal ≠ 0 := by
    simp only [ExitCodes.admissible, Bool.and_eq_true, bne_iff_ne] at ha
    exact ha.1.1
  cases r <;> simp [exitStatus, hfatal, hfatal.symm]

/-- A run of one more cycle ends with that cycle. -/
theorem runCycles_succ {ops : Opcodes} {n : Nat} {s t : State}
    (h : runCycles ops n s = .next t) : runCycles ops (n + 1) s = stepWith ops t := by
  induction n generalizing s with
  | zero =>
    obtain rfl := Host.Outcome.next.inj h
    rw [runCycles]
    rcases stepWith ops s with u | r | r <;> rfl
  | succ n ih =>
    rw [runCycles] at h ⊢
    rcases hstep : stepWith ops s with u | r | r
    · simp only [hstep] at h ⊢
      exact ih h
    · simp [hstep] at h
    · simp [hstep] at h

/-- The state of rule R187 after `n` zero bytes stepped over. -/
def walked (n : Nat) (s : State) : State :=
  { s with pc := s.pc + n, warn := s.warn ++ (List.range' s.pc n).map (⟨·, 0x00#8⟩) }

theorem walked_pc (n : Nat) (s : State) : (walked n s).pc = s.pc + n := rfl

theorem walked_run (n : Nat) (s : State) : (walked n s).run = s.run := rfl

theorem steppedOver_walked {n : Nat} {s : State} (hzero : s.mem.read (s.pc + n) = 0x00#8) :
    steppedOver (walked n s) = walked (n + 1) s := by
  have hopcode : (walked n s).opcodeByte = 0x00#8 := hzero
  have hcount : operandCount 0x00#8 = 0 := by decide
  rw [steppedOver, hopcode, hcount]
  simp [walked, State.logWarning, State.withPc, List.range'_concat, Nat.add_assoc]

/-- Zero bytes up to address 253 are stepped over one by one. -/
theorem runCycles_walked {ops : Opcodes} (ha : ops.admissible) {s : State}
    (hr : s.run = .running) {n : Nat} (hn : s.pc + n ≤ 254)
    (hzero : ∀ a, s.pc ≤ a → a ≤ 255 → s.mem.read a = 0x00#8) :
    runCycles ops n s = .next (walked n s) := by
  induction n with
  | zero => simp [runCycles, walked]
  | succ n ih =>
    have hread : s.mem.read (s.pc + n) = 0x00#8 := hzero _ (by omega) (by omega)
    have hunknown : (walked n s).opcodeByte ∉ knownOpcodes ops := by
      rw [State.opcodeByte, walked, hread]
      exact zero_not_mem_knownOpcodes ha
    have hpc : (walked n s).pc ≤ 253 := by rw [walked_pc]; omega
    rw [runCycles_succ (ih (by omega)),
      stepWith_of_unknown ((walked_run n s).trans hr) hpc hunknown, steppedOver_walked hread]

/-- Settles O44: `runCycles_walked` up to 254, where the fetch aborts. -/
theorem runningOffTheEndWarnsThenAborts : Obligations.RunningOffTheEndWarnsThenAborts := by
  intro ops s ha hr hpc hzero
  have hend : s.pc + (254 - s.pc) = 254 := by omega
  have hwalk := runCycles_walked ha hr (n := 254 - s.pc) (by omega) hzero
  have hpc' : (walked (254 - s.pc) s).pc = 254 := hend
  have hr' : (walked (254 - s.pc) s).run = .running := hr
  have hcause : cycleCause ops (walked (254 - s.pc) s) = some ⟨.mem, 256, 254⟩ := by
    rw [cycleCause_of_fetch ops (Nat.le_of_eq hpc'.symm), hpc']
    rfl
  refine ⟨_, hwalk, by rw [walked, hend], ?_⟩
  rw [show 255 - s.pc = 254 - s.pc + 1 by omega, runCycles_succ hwalk, stepWith_of_cause hr' hcause]
  rfl

end Sys2Proof.Machine

/-! PROOF. The program text of 30_encoding.md rule R72: a byte's eight binary digits, alone or
before white space and a comment, read back as the byte. -/

namespace Sys2Proof.Machine

/-! ## The digits of a byte -/

/-- A digit of a byte's line. -/
def bitChar (b : Bool) : Char := if b then '1' else '0'

theorem lineOfByte_eq (v : Byte) :
    lineOfByte v = (List.range 8).reverse.map fun k => bitChar (v.getLsbD k) := rfl

theorem mem_lineOfByte {v : Byte} {c : Char} (h : c ∈ lineOfByte v) : c = '1' ∨ c = '0' := by
  rw [lineOfByte_eq, List.mem_map] at h
  obtain ⟨k, -, rfl⟩ := h
  rw [bitChar]
  exact ite_eq_or_eq ..

theorem lineOfByte_length (v : Byte) : (lineOfByte v).length = 8 := by
  rw [lineOfByte_eq, List.length_map, List.length_reverse, List.length_range]

theorem digitValue_bitChar (b : Bool) : digitValue (bitChar b) = some b.toNat := by
  cases b <;> decide

/-- The lowest `k` bits, the most significant first, read in base 2 after the value `acc`. -/
theorem digitsValue_bits (v : Byte) (k acc : Nat) :
    digitsValue 2 ((List.range k).reverse.map fun j => bitChar (v.getLsbD j)) acc =
      some (2 ^ k * acc + v.toNat % 2 ^ k) := by
  induction k generalizing acc with
  | zero => simp [digitsValue, Nat.mod_one]
  | succ k ih =>
    have hbit : (v.getLsbD k).toNat = v.toNat / 2 ^ k % 2 := Nat.toNat_testBit ..
    have hlt : (v.getLsbD k).toNat < 2 := Bool.toNat_lt _
    rw [List.range_succ, List.reverse_concat, List.map_cons, digitsValue, digitValue_bitChar,
      Option.bind_eq_bind, Option.bind_some, if_pos hlt, ih, hbit, Nat.mod_pow_succ, Nat.pow_succ]
    ring_nf

theorem digitsValue_lineOfByte (v : Byte) : digitsValue 2 (lineOfByte v) 0 = some v.toNat := by
  rw [lineOfByte_eq, digitsValue_bits, Nat.mul_zero, Nat.zero_add, Nat.mod_eq_of_lt v.isLt]

/-! ## White space and comments -/

theorem dropWhile_of_none {l : List Char} (h : ∀ c ∈ l, c.isWhitespace = false) :
    l.dropWhile Char.isWhitespace = l := by
  cases l with
  | nil => rfl
  | cons c l => exact List.dropWhile_cons_of_neg (by simp [h c])

theorem trim_of_none {l : List Char} (h : ∀ c ∈ l, c.isWhitespace = false) : trim l = l := by
  rw [trim, dropWhile_of_none h, dropWhile_of_none fun c hc => h c (List.mem_reverse.mp hc),
    List.reverse_reverse]

/-- One space at the end goes, where there is a first character that stays. -/
theorem trim_concat_space {l : List Char} (hne : l ≠ [])
    (h : ∀ c ∈ l, c.isWhitespace = false) : trim (l ++ [' ']) = l := by
  have hfront : (l ++ [' ']).dropWhile Char.isWhitespace = l ++ [' '] := by
    obtain ⟨c, rest, rfl⟩ := List.exists_cons_of_ne_nil hne
    exact List.dropWhile_cons_of_neg (by simp [h c])
  rw [trim, hfront, List.reverse_concat, List.dropWhile_cons_of_pos (by decide),
    dropWhile_of_none fun c hc => h c (List.mem_reverse.mp hc), List.reverse_reverse]

theorem lineOfByte_ne_nil (v : Byte) : lineOfByte v ≠ [] :=
  List.ne_nil_of_length_pos (by rw [lineOfByte_length]; decide)

theorem lineOfByte_no_space (v : Byte) : ∀ c ∈ lineOfByte v, c.isWhitespace = false := by
  intro c hc
  obtain rfl | rfl := mem_lineOfByte hc <;> decide

theorem lineOfByte_no_comment (v : Byte) : ∀ c ∈ lineOfByte v, decide (c ≠ '#') = true := by
  intro c hc
  obtain rfl | rfl := mem_lineOfByte hc <;> decide

theorem stripLine_lineOfByte (v : Byte) : stripLine (lineOfByte v) = lineOfByte v := by
  rw [stripLine, List.takeWhile_eq_self_iff.mpr (lineOfByte_no_comment v),
    trim_of_none (lineOfByte_no_space v)]

theorem stripLine_comment (v : Byte) (comment : List Char) :
    stripLine (lineOfByte v ++ ' ' :: '#' :: comment) = lineOfByte v := by
  have hcut : (' ' :: '#' :: comment).takeWhile (fun c => decide (c ≠ '#')) = [' '] := rfl
  rw [stripLine, List.takeWhile_append_of_pos (lineOfByte_no_comment v), hcut,
    trim_concat_space (lineOfByte_ne_nil v) (lineOfByte_no_space v)]

theorem byteOfLine_of_strip {line : List Char} {v : Byte} (h : stripLine line = lineOfByte v) :
    byteOfLine line = .ok (some v) := by
  simp only [byteOfLine, h, if_neg (lineOfByte_ne_nil v), lineOfByte_length, ne_eq,
    not_true_eq_false, if_false, digitsValue_lineOfByte, BitVec.ofNat_toNat, BitVec.setWidth_eq]

/-! ## The obligation -/

/-- Settles O45: what is left of both lines is the eight digits, whose value is the byte's. -/
theorem programTextReadsBack : Obligations.ProgramTextReadsBack := fun v comment =>
  ⟨byteOfLine_of_strip (stripLine_lineOfByte v), byteOfLine_of_strip (stripLine_comment v comment),
    rfl, by decide⟩

end Sys2Proof.Machine
